-- ==== Sys2Proof/Word.lean ====
section
/-!
DEFINITION. The types of values: 32-bit words, bytes, register indices (spec 00_scope.md R6, R10).
Arithmetic on `Word` is BitVec arithmetic, which is modulo 2^32 as R10 asks.
-/

namespace Sys2Proof

/-- A 32-bit bit pattern: a register, the pc, an address, a memory word, an instruction word (R6, R10). -/
abbrev Word := BitVec 32

/-- One byte of the program image or of memory (R43). -/
abbrev Byte := BitVec 8

/-- A register index, 0 to 31 (R18, R60). -/
abbrev RegIndex := Fin 32

end Sys2Proof
end

