-- ==== Sys2Proof/Config.lean ====
section
/-!
DEFINITION. What is fixed for one machine: the address map (spec 00_scope.md R7), the reading of slt
(R8, 41_alu_register.md R108), the host's flags (40_pipeline.md R99), and the one free value, the host's line (R100).
-/

namespace Sys2Proof

/-- The parameter SLT_OVERFLOW: which reading of `rs - rt < 0` slt takes when the subtraction overflows (R8, R108). -/
inductive SltOverflow where
  /-- WRAP_SIGN: the sign bit of the wrapped 32-bit difference. -/
  | wrapSign
  /-- TRUE_LESS: the signed comparison of the operands. -/
  | trueLess
deriving DecidableEq, Repr

/-- The parameters a model takes as arguments (R7, R8). -/
structure Config where
  /-- INSTR_BASE: the byte address of memory word 0. -/
  instrBase : Word
  /-- NUM_INSTR: the instruction region's capacity in words. -/
  numInstr : Nat
  /-- NUM_DATA: the data region's capacity in words. -/
  numData : Nat
  /-- SLT_OVERFLOW. -/
  sltOverflow : SltOverflow
deriving DecidableEq, Repr

/-- DATA_BASE = INSTR_BASE + 4*NUM_INSTR (R7, R37). -/
def Config.dataBase (c : Config) : Nat := c.instrBase.toNat + 4 * c.numInstr

/-- DATA_END = DATA_BASE + 4*NUM_DATA, exclusive (R7, R37). -/
def Config.dataEnd (c : Config) : Nat := c.dataBase + 4 * c.numData

/-- MEM_END = DATA_END: one past the last byte of the memory image (R7). -/
def Config.memEnd (c : Config) : Nat := c.dataEnd

/-- The constraints R7 puts on the parameters. -/
abbrev Config.Wf (c : Config) : Prop :=
  c.instrBase.toNat % 4 = 0 ∧ 1 ≤ c.numInstr ∧ 1 ≤ c.numData ∧ c.memEnd ≤ 2 ^ 32

/-- The reference configuration of R7 and R108 (PRESUMED, log 2 and log 3: the spec marks its values as general
knowledge). -/
def Config.reference : Config :=
  { instrBase := 0x00400000#32, numInstr := 1024, numData := 3072, sltOverflow := .wrapSign }

/-- The host's configuration flags (40_pipeline.md R99). Only `interactive` reaches the core, through R100. -/
structure HostFlags where
  /-- print all registers, or the changed one only -/
  printAllRegisters : Bool
  /-- print all non-zero memory, or the changed word only -/
  printAllMemory : Bool
  /-- debugging-enabled: "unused by the core logic" -/
  debugging : Bool
  /-- interactive mode: a line is read before each cycle -/
  interactive : Bool
deriving DecidableEq, Repr

/-- Every flag off (DESIGN CHOICE, log 8). -/
def HostFlags.off : HostFlags :=
  { printAllRegisters := false, printAllMemory := false, debugging := false, interactive := false }

/-- One line the host reads in interactive mode, its characters in order (R100). -/
abbrev HostLine := List Char

/-- FREE VALUE (R100, I9, log 7): the n-th line the host reads, where no line has been supplied in State. It has no
body, so nothing can be proved of what it says. -/
opaque Config.freeHostLine : Nat → HostLine

end Sys2Proof
end

