-- ==== Sys2Proof/Machine/State.lean ====
section
/-!
DEFINITION. The machine's state as plain data (spec 10_state.md R33), the termination causes (60_exceptions.md R120),
what the core emits (40_pipeline.md R97), the reasons a step can stop, and the state after reset (R34).
-/

namespace Sys2Proof.Machine

/-- A step that is not enabled. -/
inductive Fault where
  /-- Raised by `step` alone, when the run state is TERMINATED: no step is enabled from it (R31, R131). A stuck state;
  safe: the machine goes no further either. -/
  | runEnded
deriving DecidableEq, Repr

/-- An instruction without a meaning. -/
inductive Refusal where
  /-- Raised by an arm of `exec` whose instruction has no meaning yet; no arm does. Safe: the model stops. -/
  | notModelled (mnemonic : String)
deriving DecidableEq, Repr

/-- The run state of the driver loop (R31). -/
inductive RunState where
  | running
  | terminated
deriving DecidableEq, Repr

/-- The termination causes with the info each records (R120). -/
inductive Cause where
  /-- Code 1: the word 0x00000000 was decoded (R121). -/
  | sentinel (pc : Word)
  /-- Code 2: an opcode outside the table (R122). -/
  | illegalOpcode (pc word : Word)
  /-- Code 3: opcode 0 with a funct outside the table (R123). -/
  | illegalFunct (pc word : Word)
  /-- Code 4: lw or sw with an invalid effective address (R124). -/
  | memoryAccess (pc addr : Word)
  /-- Code 5: fetch from a misaligned pc or a pc outside the image (R125). -/
  | fetchFault (pc : Word)
  /-- Code 6: an interactive line beginning with q (R126). -/
  | hostQuit (pc : Word)
  /-- Code 7: the image has more than NUM_INSTR words (R127, R141). -/
  | programTooLarge (words : Nat)
  /-- Code 8: the image's byte count is no multiple of 4 (R127, R142). -/
  | imageMalformed (bytes : Nat)
deriving DecidableEq, Repr

/-- The report of one completed cycle (R97), less the disassembled text (R5). -/
structure Report where
  fetchAddr : Word
  word : Word
  newPc : Word
  /-- The register written and its value, if one was (R87). -/
  regChanged : Option (RegIndex × Word)
  /-- The address stored to and its value, if one was (R83). -/
  memChanged : Option (Word × Word)
deriving DecidableEq, Repr

/-- What the core emits to the host (R97, R124). -/
inductive Event where
  /-- A completed cycle's report. -/
  | report (r : Report)
  /-- The diagnostic of a MEMORY_ACCESS termination: the pc and the offending address. -/
  | diagnostic (pc addr : Word)
deriving DecidableEq, Repr

/-- Memory: bytes at addresses, addresses strictly rising, no byte equal to what an unlisted address reads as (log 4). -/
abbrev Memory := List Host.Cell

/-- The whole machine. `regs`, `pc`, `mem`, `run` and `cause` are the record of R33; the others are the model's own
(INVENTORY.md, State): `cfg` (R7, R8; log 2), `flags` (R99; log 8), `hostLines` and `hostReads` (R100; log 7) and
`events` (R97, R101; log 9). -/
structure State where
  regs : Vector Word 32
  pc : Word
  mem : Memory
  run : RunState
  cause : Option Cause
  cfg : Config
  flags : HostFlags
  /-- Host lines already supplied, oldest first. -/
  hostLines : List HostLine
  /-- How many lines the host has read. -/
  hostReads : Nat
  /-- What has been emitted, oldest first. -/
  events : List Event
deriving DecidableEq, Repr

/-- The reset state for a configuration, the host's flags and lines, and the memory the loader leaves (R34, R137,
R138): x[29] = MEM_END, every other register 0, pc = INSTR_BASE, RUNNING, no cause. -/
def State.resetOf (cfg : Config) (flags : HostFlags) (lines : List HostLine) (mem : Memory) : State :=
  { regs := (Vector.replicate 32 0#32).set 29 (BitVec.ofNat 32 cfg.memEnd)
    pc := cfg.instrBase
    mem := mem
    run := .running
    cause := none
    cfg := cfg
    flags := flags
    hostLines := lines
    hostReads := 0
    events := [] }

/-- The machine right after reset in the reference configuration with the empty image: every memory word is 0, so
nothing is listed (R34, R139, R141; logs 2 and 10). -/
def State.reset : State := State.resetOf Config.reference HostFlags.off [] []

/-- What the host's turn before a cycle comes to (R100). -/
inductive HostTurn where
  /-- The line begins with q: the run ends before the fetch. -/
  | quit (s : State)
  /-- The cycle runs. -/
  | proceed (s : State)
deriving DecidableEq, Repr

end Sys2Proof.Machine
end

