-- ==== Sys2Proof/Machine/Operands.lean ====
section
/-!
DEFINITION. The operand forms: immediates, branch offsets, jump targets and the effective address
(spec 30_encoding.md R58 to R61, 43_load_store.md). Register operands are `State.readReg` of the state at the start
of the cycle, the snapshot (40_pipeline.md R79).
-/

namespace Sys2Proof.Machine

/-- sext_32: bits 31 to 16 all equal bit 15 (00_scope.md R11, 30_encoding.md R58). -/
def signExtend32 (imm16 : BitVec 16) : Word :=
  if imm16.getLsbD 15 then 0xffff0000#32 ||| imm16.setWidth 32 else imm16.setWidth 32

/-- A branch's byte offset from pc + 4: the sign-extended immediate times 4 (R59). -/
def branchOffset (imm16 : BitVec 16) : Word := signExtend32 imm16 <<< 2

/-- lui's operand: the sign-extended immediate shifted left 16 (R59, 42_alu_immediate.md R112). -/
def upperImmediate (imm16 : BitVec 16) : Word := signExtend32 imm16 <<< 16

/-- The J target: the segment of the jump's own pc and the field times 4 (R61). -/
def jumpTarget (pc : Word) (target26 : BitVec 26) : Word :=
  (pc &&& 0xF0000000#32) ||| (target26.setWidth 32 <<< 2)

/-- The effective address of lw and sw: the base plus the sign-extended displacement, modulo 2^32 (R59, 43). -/
def effectiveAddress (base : Word) (imm16 : BitVec 16) : Word := base + signExtend32 imm16

end Sys2Proof.Machine
end

