-- ==== Sys2Proof/Syntax.lean ====
section
/-!
DEFINITION. The instructions: one constructor per row of spec/opcode_table.json (spec 30_encoding.md R62, R63, R65),
each with every field of its format (R55 to R57, R70), the fields it ignores included (R68).
-/

namespace Sys2Proof

/-- The 18 instructions and the sentinel. Fields are in the order of the format's bits, high to low. -/
inductive Instr where
  /-- The all-zero word (R65). -/
  | sentinel
  | sll (rs rt rd : RegIndex) (shamt : BitVec 5)
  | srl (rs rt rd : RegIndex) (shamt : BitVec 5)
  | jr (rs rt rd : RegIndex) (shamt : BitVec 5)
  | addu (rs rt rd : RegIndex) (shamt : BitVec 5)
  | subu (rs rt rd : RegIndex) (shamt : BitVec 5)
  | and (rs rt rd : RegIndex) (shamt : BitVec 5)
  | or (rs rt rd : RegIndex) (shamt : BitVec 5)
  | slt (rs rt rd : RegIndex) (shamt : BitVec 5)
  | j (target26 : BitVec 26)
  | jal (target26 : BitVec 26)
  | beq (rs rt : RegIndex) (imm16 : BitVec 16)
  | bne (rs rt : RegIndex) (imm16 : BitVec 16)
  | addiu (rs rt : RegIndex) (imm16 : BitVec 16)
  | andi (rs rt : RegIndex) (imm16 : BitVec 16)
  | ori (rs rt : RegIndex) (imm16 : BitVec 16)
  | lui (rs rt : RegIndex) (imm16 : BitVec 16)
  | lw (rs rt : RegIndex) (imm16 : BitVec 16)
  | sw (rs rt : RegIndex) (imm16 : BitVec 16)
deriving DecidableEq, Repr

end Sys2Proof
end

