-- ==== Sys2Proof/Decode.lean ====
section
/-!
DEFINITION. The decoder, from words and from bytes, and after it the encoder. Both follow spec 30_encoding.md: the
formats R55 to R57, the opcode map R62, the funct map R63, the order of tests R64, and 40_pipeline.md R78.
-/

namespace Sys2Proof

/-- Why a word is no instruction. -/
inductive DecodeError where
  /-- An opcode outside the map of R62 (R66). -/
  | illegalOpcode
  /-- Opcode 0 with a funct outside the map of R63, in a word that is not zero (R67). -/
  | illegalFunct
deriving DecidableEq, Repr

/-- Why bytes give no instruction. -/
inductive BytesError where
  /-- Fewer than the four bytes of a word (R53). -/
  | truncated
  /-- The word is rejected. -/
  | rejected (e : DecodeError)
deriving DecidableEq, Repr

/-- w[31:26] (R54). -/
def opcodeField (w : Word) : BitVec 6 := w.extractLsb' 26 6
/-- w[25:21] (R55, R56). -/
def rsField (w : Word) : RegIndex := (w.extractLsb' 21 5).toFin
/-- w[20:16] (R55, R56). -/
def rtField (w : Word) : RegIndex := (w.extractLsb' 16 5).toFin
/-- w[15:11] (R55). -/
def rdField (w : Word) : RegIndex := (w.extractLsb' 11 5).toFin
/-- w[10:6] (R55, R60). -/
def shamtField (w : Word) : BitVec 5 := w.extractLsb' 6 5
/-- w[5:0] (R55). -/
def functField (w : Word) : BitVec 6 := w.extractLsb' 0 6
/-- w[15:0] (R56). -/
def immField (w : Word) : BitVec 16 := w.extractLsb' 0 16
/-- w[25:0] (R57). -/
def targetField (w : Word) : BitVec 26 := w.extractLsb' 0 26

/-- The funct map of opcode 0 (R63, R67). -/
def decodeR (w : Word) : Except DecodeError Instr :=
  match (functField w).toNat with
  | 0 => .ok (.sll (rsField w) (rtField w) (rdField w) (shamtField w))
  | 2 => .ok (.srl (rsField w) (rtField w) (rdField w) (shamtField w))
  | 8 => .ok (.jr (rsField w) (rtField w) (rdField w) (shamtField w))
  | 33 => .ok (.addu (rsField w) (rtField w) (rdField w) (shamtField w))
  | 35 => .ok (.subu (rsField w) (rtField w) (rdField w) (shamtField w))
  | 36 => .ok (.and (rsField w) (rtField w) (rdField w) (shamtField w))
  | 37 => .ok (.or (rsField w) (rtField w) (rdField w) (shamtField w))
  | 42 => .ok (.slt (rsField w) (rtField w) (rdField w) (shamtField w))
  | _ => .error .illegalFunct

/-- The decoder: the sentinel first, then the opcode (R64, R78). Total on all words (R69). -/
def decode (w : Word) : Except DecodeError Instr :=
  if w = 0#32 then .ok .sentinel
  else match (opcodeField w).toNat with
    | 0 => decodeR w
    | 2 => .ok (.j (targetField w))
    | 3 => .ok (.jal (targetField w))
    | 4 => .ok (.beq (rsField w) (rtField w) (immField w))
    | 5 => .ok (.bne (rsField w) (rtField w) (immField w))
    | 9 => .ok (.addiu (rsField w) (rtField w) (immField w))
    | 12 => .ok (.andi (rsField w) (rtField w) (immField w))
    | 13 => .ok (.ori (rsField w) (rtField w) (immField w))
    | 15 => .ok (.lui (rsField w) (rtField w) (immField w))
    | 35 => .ok (.lw (rsField w) (rtField w) (immField w))
    | 43 => .ok (.sw (rsField w) (rtField w) (immField w))
    | _ => .error .illegalOpcode

/-- The word of four image bytes, the first in bits 31 to 24 (20_memory.md R43). -/
def wordOfBytes (b0 b1 b2 b3 : Byte) : Word := b0 ++ b1 ++ b2 ++ b3

/-- The four bytes of a word as memory and the image hold them (R43). -/
def bytesOfWord (w : Word) : List Byte :=
  [w.extractLsb' 24 8, w.extractLsb' 16 8, w.extractLsb' 8 8, w.extractLsb' 0 8]

/-- The instruction at the head of a byte sequence and the bytes after it; every instruction takes four (R53). -/
def decodeBytes : List Byte → Except BytesError (Instr × List Byte)
  | b0 :: b1 :: b2 :: b3 :: rest =>
    match decode (wordOfBytes b0 b1 b2 b3) with
    | .ok i => .ok (i, rest)
    | .error e => .error (.rejected e)
  | _ => .error .truncated

/-- The instruction of an opcode-table row's bits: bits above `nbits` are 0, and the word is laid out in memory's byte
order and given to the decoder. -/
def decodeTableWord (nbits w : Nat) : Option Instr :=
  match decodeBytes (bytesOfWord (BitVec.ofNat 32 (w % 2 ^ nbits))) with
  | .ok (i, _) => some i
  | .error _ => none

/-- A register index as its 5 bits (R60). -/
def regBits (r : RegIndex) : BitVec 5 := BitVec.ofFin (w := 5) r

/-- An R-format word: opcode 0 (R55). -/
def encodeR (funct : BitVec 6) (rs rt rd : RegIndex) (shamt : BitVec 5) : Word :=
  0#6 ++ regBits rs ++ regBits rt ++ regBits rd ++ shamt ++ funct

/-- An I-format word (R56). -/
def encodeI (opcode : BitVec 6) (rs rt : RegIndex) (imm16 : BitVec 16) : Word :=
  opcode ++ regBits rs ++ regBits rt ++ imm16

/-- A J-format word (R57). -/
def encodeJ (opcode : BitVec 6) (target26 : BitVec 26) : Word := opcode ++ target26

/-- The word of an instruction, by the maps of R62 and R63. -/
def encode : Instr → Word
  | .sentinel => 0#32
  | .sll rs rt rd shamt => encodeR 0b000000#6 rs rt rd shamt
  | .srl rs rt rd shamt => encodeR 0b000010#6 rs rt rd shamt
  | .jr rs rt rd shamt => encodeR 0b001000#6 rs rt rd shamt
  | .addu rs rt rd shamt => encodeR 0b100001#6 rs rt rd shamt
  | .subu rs rt rd shamt => encodeR 0b100011#6 rs rt rd shamt
  | .and rs rt rd shamt => encodeR 0b100100#6 rs rt rd shamt
  | .or rs rt rd shamt => encodeR 0b100101#6 rs rt rd shamt
  | .slt rs rt rd shamt => encodeR 0b101010#6 rs rt rd shamt
  | .j target26 => encodeJ 0b000010#6 target26
  | .jal target26 => encodeJ 0b000011#6 target26
  | .beq rs rt imm16 => encodeI 0b000100#6 rs rt imm16
  | .bne rs rt imm16 => encodeI 0b000101#6 rs rt imm16
  | .addiu rs rt imm16 => encodeI 0b001001#6 rs rt imm16
  | .andi rs rt imm16 => encodeI 0b001100#6 rs rt imm16
  | .ori rs rt imm16 => encodeI 0b001101#6 rs rt imm16
  | .lui rs rt imm16 => encodeI 0b001111#6 rs rt imm16
  | .lw rs rt imm16 => encodeI 0b100011#6 rs rt imm16
  | .sw rs rt imm16 => encodeI 0b101011#6 rs rt imm16

end Sys2Proof
end

