-- ==== Sys2Proof/Machine/Ops.lean ====
section
/-!
DEFINITION. The shared operations: memory as bytes and words, the two address checks, registers, fetching, the
host's turn, taking a termination (ONE operation), and committing a completed cycle (ONE operation).
There is no return from a termination (spec 60_exceptions.md R131), so no operation returns from one.
-/

namespace Sys2Proof.Machine

/-! ### Memory -/

/-- What an address that is not listed reads as: memory resets to 0 (10_state.md R34, 70_reset_and_hazards.md R139). -/
def Memory.unlistedByte : Byte := 0#8

/-- The canonical form: addresses strictly rising, no listed byte equal to the unlisted one. -/
abbrev Memory.wf (m : Memory) : Prop :=
  m.Pairwise (fun c d => c.1 < d.1) ∧ ∀ c ∈ m, c.2 ≠ Memory.unlistedByte

/-- The byte at an address. -/
def Memory.readByte : Memory → Nat → Byte
  | [], _ => Memory.unlistedByte
  | c :: rest, a => if c.1 = a then c.2 else Memory.readByte rest a

/-- A cell put in front of cells at higher addresses, left out where it would equal the unlisted byte. -/
def Memory.consCell (a : Nat) (v : Byte) (m : Memory) : Memory :=
  if v = Memory.unlistedByte then m else (a, v) :: m

/-- One byte written, the canonical form kept. -/
def Memory.writeByte : Memory → Nat → Byte → Memory
  | [], a, v => Memory.consCell a v []
  | c :: rest, a, v =>
    if a < c.1 then Memory.consCell a v (c :: rest)
    else if a = c.1 then Memory.consCell a v rest
    else c :: Memory.writeByte rest a v

/-- MemRead(addr, 4): the word at an address, big-endian (00_scope.md R11, 20_memory.md R43, R44). -/
def Memory.readWord (m : Memory) (a : Nat) : Word :=
  wordOfBytes (m.readByte a) (m.readByte (a + 1)) (m.readByte (a + 2)) (m.readByte (a + 3))

/-- MemWrite(addr, 4, v): the word at an address replaced, big-endian (R11, R43, R44). -/
def Memory.writeWord (m : Memory) (a : Nat) (v : Word) : Memory :=
  (((m.writeByte a (v.extractLsb' 24 8)).writeByte (a + 1) (v.extractLsb' 16 8)).writeByte
    (a + 2) (v.extractLsb' 8 8)).writeByte (a + 3) (v.extractLsb' 0 8)

/-! ### The two address checks -/

/-- `valid(ea)` for lw and sw: in the data region, compared unsigned, and a multiple of 4 (20_memory.md R40, R41). -/
abbrev ValidData (c : Config) (ea : Word) : Prop :=
  c.dataBase ≤ ea.toNat ∧ ea.toNat < c.dataEnd ∧ ea.toNat % 4 = 0

/-- `fetch_ok`: the pc is a multiple of 4 inside the image, either region (40_pipeline.md R76, 20_memory.md R39, R46). -/
abbrev FetchOk (c : Config) (pc : Word) : Prop :=
  pc.toNat % 4 = 0 ∧ c.instrBase.toNat ≤ pc.toNat ∧ pc.toNat < c.memEnd

/-! ### Registers -/

/-- x[i]: register 0 always reads 0 (10_state.md R19). -/
def State.readReg (s : State) (i : RegIndex) : Word := if i = 0 then 0#32 else s.regs[i]

/-- x[i] <- v: register 0 is never written (R19, 40_pipeline.md R88, R90). -/
def State.writeReg (s : State) (i : RegIndex) (v : Word) : State :=
  if i = 0 then s else { s with regs := s.regs.set i v }

/-- The write a destination field asks for: none where it is register 0 (R88, R90). -/
def destination (i : RegIndex) (v : Word) : Option (RegIndex × Word) := if i = 0 then none else some (i, v)

/-! ### Setters -/

def State.setPc (s : State) (pc : Word) : State := { s with pc := pc }

def State.storeWord (s : State) (ea v : Word) : State := { s with mem := s.mem.writeWord ea.toNat v }

def State.emit (s : State) (es : List Event) : State := { s with events := s.events ++ es }

/-! ### Terminations: the core's only exceptional events -/

/-- The diagnostic a cause emits: MEMORY_ACCESS its pc and address, every other cause nothing (60_exceptions.md R124,
R132; 40_pipeline.md R97). -/
def Cause.diagnostics : Cause → List Event
  | .memoryAccess pc addr => [.diagnostic pc addr]
  | .sentinel _ | .illegalOpcode _ _ | .illegalFunct _ _ | .fetchFault _ | .hostQuit _ => []
  | .programTooLarge _ | .imageMalformed _ => []

/-- Taking a termination (60_exceptions.md R130, 40_pipeline.md R96): the run ends, the cause is recorded, nothing else
of the machine changes, and the pc stays at the terminating instruction. -/
def State.terminate (s : State) (c : Cause) : State :=
  ({ s with run := .terminated, cause := some c }).emit c.diagnostics

/-! ### Committing a completed cycle -/

/-- The register write port (40_pipeline.md R87). -/
def State.writeBack (s : State) : Option (RegIndex × Word) → State
  | none => s
  | some (i, v) => s.writeReg i v

/-- The memory write port (R83, R85). -/
def State.storeBack (s : State) : Option (Word × Word) → State
  | none => s
  | some (ea, v) => s.storeWord ea v

/-- The word at the pc, as the cycle fetches it (R76). -/
def State.fetchedWord (s : State) : Word := s.mem.readWord s.pc.toNat

/-- The commit of R94: the register write, the memory write, the new pc and the cycle's report (R97), together. -/
def State.commit (s : State) (regW : Option (RegIndex × Word)) (memW : Option (Word × Word)) (npc : Word) : State :=
  (((s.writeBack regW).storeBack memW).setPc npc).emit
    [.report { fetchAddr := s.pc, word := s.fetchedWord, newPc := npc, regChanged := regW, memChanged := memW }]

/-- The default next pc (R92), modulo 2^32 (10_state.md R26). -/
def State.nextPc (s : State) : Word := s.pc + 4#32

/-- A cycle that writes its result to the register of a destination field and goes on in sequence (R88, R90, R92). -/
def State.finishReg (s : State) (i : RegIndex) (v : Word) : Host.Outcome State Fault Refusal :=
  .next (s.commit (destination i v) none s.nextPc)

/-- A cycle that writes nothing but the pc (R91, R93). -/
def State.finishJump (s : State) (npc : Word) : Host.Outcome State Fault Refusal :=
  .next (s.commit none none npc)

/-! ### The host's turn and the fetch -/

/-- A line that ends the run: it begins with q (40_pipeline.md R100, 90_conflicts.md C5). -/
def quits : HostLine → Bool
  | [] => false
  | c :: _ => c == 'q'

/-- The line the host reads before this cycle: the oldest supplied, else the free line (R100, log 7). -/
def State.hostLine (s : State) : HostLine :=
  match s.hostLines with
  | [] => Config.freeHostLine s.hostReads
  | l :: _ => l

/-- The line is read. -/
def State.takeLine (s : State) : State :=
  { s with hostLines := s.hostLines.tail, hostReads := s.hostReads + 1 }

/-- Before a cycle: nothing without interactive mode, else one line is read and may end the run (R100, R150). -/
def State.hostTurn (s : State) : HostTurn :=
  if s.flags.interactive then
    (if quits s.hostLine then .quit s.takeLine else .proceed s.takeLine)
  else .proceed s

/-- The termination a decode verdict takes (R78, 60_exceptions.md R122, R123). -/
def verdictCause (pc word : Word) : DecodeError → Cause
  | .illegalOpcode => .illegalOpcode pc word
  | .illegalFunct => .illegalFunct pc word

/-- Fetch and decode: the instruction at the pc, or the cause that ends the run (R76, R78, R94). -/
def State.fetchDecode (s : State) : Except Cause Instr :=
  if FetchOk s.cfg s.pc then
    match decode s.fetchedWord with
    | .ok i => .ok i
    | .error e => .error (verdictCause s.pc s.fetchedWord e)
  else .error (.fetchFault s.pc)

end Sys2Proof.Machine
end

