-- ==== Sys2Proof/Machine/AluImmediate.lean ====
section
/-!
DEFINITION. The register-immediate ALU instructions (spec 42_alu_immediate.md R109 to R112). Every immediate is
sign-extended, andi's and ori's included.
-/

namespace Sys2Proof.Machine

/-- addiu (R109): no overflow trap. -/
def execAddiu (rs rt : RegIndex) (imm16 : BitVec 16) (s : State) : Host.Outcome State Fault Refusal :=
  s.finishReg rt (s.readReg rs + signExtend32 imm16)

/-- andi (R110). -/
def execAndi (rs rt : RegIndex) (imm16 : BitVec 16) (s : State) : Host.Outcome State Fault Refusal :=
  s.finishReg rt (s.readReg rs &&& signExtend32 imm16)

/-- ori (R111). -/
def execOri (rs rt : RegIndex) (imm16 : BitVec 16) (s : State) : Host.Outcome State Fault Refusal :=
  s.finishReg rt (s.readReg rs ||| signExtend32 imm16)

/-- lui (R112): rs is ignored. -/
def execLui (_rs rt : RegIndex) (imm16 : BitVec 16) (s : State) : Host.Outcome State Fault Refusal :=
  s.finishReg rt (upperImmediate imm16)

end Sys2Proof.Machine
end

