-- ==== Sys2Proof/Machine/Flags.lean ====
section
/-!
DEFINITION. Conditions. The core has no flags (spec 10_state.md R27): a condition is computed into a register (slt) or
consumed inside one instruction (beq, bne). This file holds the two conditions there are.
-/

namespace Sys2Proof.Machine

/-- slt's result under the reading SLT_OVERFLOW selects (41_alu_register.md R108). -/
def sltResult (reading : SltOverflow) (vs vt : Word) : Word :=
  match reading with
  | .wrapSign => if (vs - vt).getLsbD 31 then 1#32 else 0#32
  | .trueLess => if vs.toInt < vt.toInt then 1#32 else 0#32

/-- The branch condition: bit patterns equal (00_scope.md R13, 44_control_transfer.md R115, R116). -/
def patternsEqual (vs vt : Word) : Bool := vs == vt

end Sys2Proof.Machine
end

