-- ==== Sys2Proof/Machine/AluRegister.lean ====
section
/-!
DEFINITION. The register-register ALU instructions (spec 41_alu_register.md R102 to R108).
-/

namespace Sys2Proof.Machine

/-- sll (R102): vt shifted left, zero fill; rs is ignored. -/
def execSll (_rs rt rd : RegIndex) (shamt : BitVec 5) (s : State) : Host.Outcome State Fault Refusal :=
  s.finishReg rd (s.readReg rt <<< shamt.toNat)

/-- srl (R103): vt shifted right, zero fill; rs is ignored. -/
def execSrl (_rs rt rd : RegIndex) (shamt : BitVec 5) (s : State) : Host.Outcome State Fault Refusal :=
  s.finishReg rd (s.readReg rt >>> shamt.toNat)

/-- addu (R104): no overflow trap; shamt is ignored. -/
def execAddu (rs rt rd : RegIndex) (_shamt : BitVec 5) (s : State) : Host.Outcome State Fault Refusal :=
  s.finishReg rd (s.readReg rs + s.readReg rt)

/-- subu (R105): no overflow trap; shamt is ignored. -/
def execSubu (rs rt rd : RegIndex) (_shamt : BitVec 5) (s : State) : Host.Outcome State Fault Refusal :=
  s.finishReg rd (s.readReg rs - s.readReg rt)

/-- and (R106); shamt is ignored. -/
def execAnd (rs rt rd : RegIndex) (_shamt : BitVec 5) (s : State) : Host.Outcome State Fault Refusal :=
  s.finishReg rd (s.readReg rs &&& s.readReg rt)

/-- or (R107); shamt is ignored. -/
def execOr (rs rt rd : RegIndex) (_shamt : BitVec 5) (s : State) : Host.Outcome State Fault Refusal :=
  s.finishReg rd (s.readReg rs ||| s.readReg rt)

/-- slt (R108): under the configuration's reading of SLT_OVERFLOW; shamt is ignored. -/
def execSlt (rs rt rd : RegIndex) (_shamt : BitVec 5) (s : State) : Host.Outcome State Fault Refusal :=
  s.finishReg rd (sltResult s.cfg.sltOverflow (s.readReg rs) (s.readReg rt))

end Sys2Proof.Machine
end

