-- ==== Sys2Proof/Machine/ControlTransfer.lean ====
section
/-!
DEFINITION. Control transfer (spec 44_control_transfer.md R115 to R119). No delay slots; targets are not checked here:
a bad one is met by the next fetch (R76).
-/

namespace Sys2Proof.Machine

/-- beq (R115). -/
def execBeq (rs rt : RegIndex) (imm16 : BitVec 16) (s : State) : Host.Outcome State Fault Refusal :=
  s.finishJump (s.nextPc + (if patternsEqual (s.readReg rs) (s.readReg rt) then branchOffset imm16 else 0#32))

/-- bne (R116). -/
def execBne (rs rt : RegIndex) (imm16 : BitVec 16) (s : State) : Host.Outcome State Fault Refusal :=
  s.finishJump (s.nextPc + (if patternsEqual (s.readReg rs) (s.readReg rt) then 0#32 else branchOffset imm16))

/-- j (R117). -/
def execJ (target26 : BitVec 26) (s : State) : Host.Outcome State Fault Refusal :=
  s.finishJump (jumpTarget s.pc target26)

/-- jal (R118): register 31 always takes pc + 4. -/
def execJal (target26 : BitVec 26) (s : State) : Host.Outcome State Fault Refusal :=
  .next (s.commit (some (31, s.nextPc)) none (jumpTarget s.pc target26))

/-- jr (R119): the pc takes any 32-bit value; rt, rd and shamt are ignored. -/
def execJr (rs _rt _rd : RegIndex) (_shamt : BitVec 5) (s : State) : Host.Outcome State Fault Refusal :=
  s.finishJump (s.readReg rs)

end Sys2Proof.Machine
end

