-- ==== Sys2Proof/Machine/LoadStore.lean ====
section
/-!
DEFINITION. Loads and stores (spec 43_load_store.md R113, R114). An invalid effective address is the termination
MEMORY_ACCESS, taken before anything is written (20_memory.md R42, 40_pipeline.md R84, R85).
-/

namespace Sys2Proof.Machine

/-- lw (R113): with rt = 0 the load is still validated and writes nothing. -/
def execLw (rs rt : RegIndex) (imm16 : BitVec 16) (s : State) : Host.Outcome State Fault Refusal :=
  if ValidData s.cfg (effectiveAddress (s.readReg rs) imm16) then
    s.finishReg rt (s.mem.readWord (effectiveAddress (s.readReg rs) imm16).toNat)
  else .next (s.terminate (.memoryAccess s.pc (effectiveAddress (s.readReg rs) imm16)))

/-- sw (R114): the store is reported even where it changes nothing. -/
def execSw (rs rt : RegIndex) (imm16 : BitVec 16) (s : State) : Host.Outcome State Fault Refusal :=
  if ValidData s.cfg (effectiveAddress (s.readReg rs) imm16) then
    .next (s.commit none (some (effectiveAddress (s.readReg rs) imm16, s.readReg rt)) s.nextPc)
  else .next (s.terminate (.memoryAccess s.pc (effectiveAddress (s.readReg rs) imm16)))

end Sys2Proof.Machine
end

