-- ==== Sys2Proof/Machine/Sentinel.lean ====
section
/-!
DEFINITION. The sentinel (spec 30_encoding.md R65, 60_exceptions.md R121): the core's only halting instruction.
-/

namespace Sys2Proof.Machine

/-- The all-zero word ends the run with cause SENTINEL; it reads no register and writes nothing (R65, R121). -/
def execSentinel (s : State) : Host.Outcome State Fault Refusal :=
  .next (s.terminate (.sentinel s.pc))

end Sys2Proof.Machine
end

