-- ==== Sys2Proof/Machine/Step.lean ====
section
/-!
DEFINITION. One step of the driver loop (spec 40_pipeline.md R94, R100) and the placing of a word where the next step
fetches.
-/

namespace Sys2Proof.Machine

/-- One step: not enabled once TERMINATED (60_exceptions.md R131); else the host's turn (R100), the fetch and decode
(R76, R78), and the instruction (R94). Every termination is a next state (R130, log 1). -/
def step (s : State) : Host.Outcome State Fault Refusal :=
  match s.run with
  | .terminated => .fault .runEnded
  | .running =>
    match s.hostTurn with
    | .quit t => .next (t.terminate (.hostQuit t.pc))
    | .proceed t =>
      match t.fetchDecode with
      | .error c => .next (t.terminate c)
      | .ok i => exec i t

/-- The state made ready to fetch: running, no cause, the pc kept where it can be fetched from and else put at
INSTR_BASE, and in interactive mode an empty line (which lets the cycle run) put before the others (log 11). -/
def State.readyToFetch (s : State) : State :=
  { s with
    run := .running
    cause := none
    pc := if FetchOk s.cfg s.pc then s.pc else s.cfg.instrBase
    hostLines := if s.flags.interactive then [] :: s.hostLines else s.hostLines }

/-- The state with an instruction's word stored where the next step fetches it, the bits above `nbits` zero. -/
def State.withFetchWord (s : State) (nbits w : Nat) : State :=
  s.readyToFetch.storeWord s.readyToFetch.pc (BitVec.ofNat 32 (w % 2 ^ nbits))

end Sys2Proof.Machine
end

