-- ==== Sys2Proof/Machine/Loader.lean ====
section
/-!
DEFINITION. The Instruction Loader and the boot order (spec 70_reset_and_hazards.md R139 to R143). A program comes to
run through `boot`; `State.reset` is the boot of the empty image (log 10).
-/

namespace Sys2Proof.Machine

/-- What booting comes to: a machine about to run its first cycle, or a load-time failure and no run (R127, R143). -/
inductive BootResult where
  | started (s : State)
  | noRun (c : Cause)
deriving DecidableEq, Repr

/-- The words of an image, four bytes each, big-endian (R140, R142). -/
def imageWords : List Byte → List Word
  | b0 :: b1 :: b2 :: b3 :: rest => wordOfBytes b0 b1 b2 b3 :: imageWords rest
  | _ => []

/-- Words written in order from an address on (R139). -/
def loadWords (a : Nat) : List Word → Memory → Memory
  | [], m => m
  | w :: ws, m => loadWords (a + 4) ws (m.writeWord a w)

/-- The boot order of R143: the length check, the capacity check (R129), memory, then registers, pc and run state. -/
def boot (cfg : Config) (flags : HostFlags) (lines : List HostLine) (image : List Byte) : BootResult :=
  if image.length % 4 ≠ 0 then .noRun (.imageMalformed image.length)
  else if cfg.numInstr < (imageWords image).length then .noRun (.programTooLarge (imageWords image).length)
  else .started (State.resetOf cfg flags lines (loadWords cfg.instrBase.toNat (imageWords image) []))

end Sys2Proof.Machine
end

