-- ==== Sys2Proof/Machine/Pipeline.lean ====
section
/-!
DEFINITION. The blocks of the core as spec 40_pipeline.md gives them (R73 to R94), each as one combinational function,
and the one cycle that composes them. `step` runs the per-instruction meanings of files 41 to 44; an obligation says
that the two agree (R94 governs).
-/

namespace Sys2Proof.Machine

/-- fetch_unit's outputs (R75). -/
structure FetchOut where
  instr : Word
  ok : Bool
deriving DecidableEq, Repr

/-- fetch_unit (R76). -/
def fetchUnit (s : State) : FetchOut :=
  { instr := if FetchOk s.cfg s.pc then s.mem.readWord s.pc.toNat else 0#32
    ok := decide (FetchOk s.cfg s.pc) }

/-- The decoded kind: one per instruction and the three decode verdicts (R70, R74). -/
inductive Kind where
  | sll | srl | jr | addu | subu | and | or | slt
  | j | jal | beq | bne | addiu | andi | ori | lui | lw | sw
  | sentinel | illegalOpcode | illegalFunct
deriving DecidableEq, Repr

/-- instruction_decoder's outputs and the snapshot (R77). A field its family does not define is don't-care: no later
stage reads it (R78, log 14). -/
structure DecoderOut where
  kind : Kind
  rs : RegIndex
  rt : RegIndex
  rd : RegIndex
  shamt : BitVec 5
  funct : BitVec 6
  imm : Word
  target : Word
  vs : Word
  vt : Word
  vd : Word
deriving DecidableEq, Repr

/-- The kind by funct, for opcode 0 (R63, R67). -/
def kindOfFunct (funct : Nat) : Kind :=
  if funct = 0 then .sll else if funct = 2 then .srl else if funct = 8 then .jr
  else if funct = 33 then .addu else if funct = 35 then .subu else if funct = 36 then .and
  else if funct = 37 then .or else if funct = 42 then .slt else .illegalFunct

/-- The kind of a word: the sentinel, then the opcode (R62, R64, R66, R78). -/
def kindOfWord (w : Word) : Kind :=
  if w = 0#32 then .sentinel
  else if (opcodeField w).toNat = 0 then kindOfFunct (functField w).toNat
  else if (opcodeField w).toNat = 2 then .j else if (opcodeField w).toNat = 3 then .jal
  else if (opcodeField w).toNat = 4 then .beq else if (opcodeField w).toNat = 5 then .bne
  else if (opcodeField w).toNat = 9 then .addiu else if (opcodeField w).toNat = 12 then .andi
  else if (opcodeField w).toNat = 13 then .ori else if (opcodeField w).toNat = 15 then .lui
  else if (opcodeField w).toNat = 35 then .lw else if (opcodeField w).toNat = 43 then .sw
  else .illegalOpcode

/-- instruction_decoder with its three register-file read ports (R77, R78, R79). -/
def instructionDecoder (s : State) (w : Word) : DecoderOut :=
  { kind := kindOfWord w
    rs := rsField w
    rt := rtField w
    rd := rdField w
    shamt := shamtField w
    funct := functField w
    imm := signExtend32 (immField w)
    target := jumpTarget s.pc (targetField w)
    vs := s.readReg (rsField w)
    vt := s.readReg (rtField w)
    vd := s.readReg (rdField w) }

/-- alu_executor (R80, R81); the verdicts never reach it (R82). -/
def aluExecutor (reading : SltOverflow) (pc : Word) (d : DecoderOut) : Word :=
  match d.kind with
  | .sll => d.vt <<< d.shamt.toNat
  | .srl => d.vt >>> d.shamt.toNat
  | .jr => d.vs
  | .addu => d.vs + d.vt
  | .subu => d.vs - d.vt
  | .and => d.vs &&& d.vt
  | .or => d.vs ||| d.vt
  | .slt => sltResult reading d.vs d.vt
  | .j => 0#32
  | .jal => pc + 4#32
  | .beq => if d.vs = d.vt then d.imm <<< 2 else 0#32
  | .bne => if d.vs = d.vt then 0#32 else d.imm <<< 2
  | .addiu => d.vs + d.imm
  | .andi => d.vs &&& d.imm
  | .ori => d.vs ||| d.imm
  | .lui => d.imm <<< 16
  | .lw => d.vs + d.imm
  | .sw => d.vs + d.imm
  | .sentinel | .illegalOpcode | .illegalFunct => 0#32

/-- load_store_unit's outputs (R83). -/
structure LoadStoreOut where
  fwd : Word
  memChanged : Option (Word × Word)
  memFault : Bool
deriving DecidableEq, Repr

/-- load_store_unit (R84 to R86). -/
def loadStoreUnit (s : State) (d : DecoderOut) (result : Word) : LoadStoreOut :=
  match d.kind with
  | .lw => { fwd := s.mem.readWord result.toNat, memChanged := none, memFault := decide (¬ ValidData s.cfg result) }
  | .sw => { fwd := result, memChanged := some (result, d.vt), memFault := decide (¬ ValidData s.cfg result) }
  | .sll | .srl | .jr | .addu | .subu | .and | .or | .slt | .j | .jal | .beq | .bne | .addiu | .andi | .ori | .lui
  | .sentinel | .illegalOpcode | .illegalFunct => { fwd := result, memChanged := none, memFault := false }

/-- The writeback control that drives the register file's write port (R87 to R91). -/
def writebackControl (d : DecoderOut) (fwd : Word) : Option (RegIndex × Word) :=
  match d.kind with
  | .sll | .srl | .addu | .subu | .and | .or | .slt => destination d.rd fwd
  | .jal => some (31, fwd)
  | .addiu | .andi | .ori | .lui | .lw => destination d.rt fwd
  | .jr | .j | .beq | .bne | .sw | .sentinel | .illegalOpcode | .illegalFunct => none

/-- program_counter_update_logic (R92, R93). -/
def programCounterUpdate (pc : Word) (d : DecoderOut) (result : Word) : Word :=
  match d.kind with
  | .jr => result
  | .j | .jal => d.target
  | .beq | .bne => pc + 4#32 + result
  | .sll | .srl | .addu | .subu | .and | .or | .slt | .addiu | .andi | .ori | .lui | .lw | .sw
  | .sentinel | .illegalOpcode | .illegalFunct => pc + 4#32

/-- The stages after decode, and the commit (R94). -/
def executeStages (s : State) (d : DecoderOut) : State :=
  let r := aluExecutor s.cfg.sltOverflow s.pc d
  let m := loadStoreUnit s d r
  if m.memFault then s.terminate (.memoryAccess s.pc r)
  else s.commit (writebackControl d m.fwd) m.memChanged (programCounterUpdate s.pc d r)

/-- instruction_interpreter_pipeline: one cycle of a running machine (R94, R95). -/
def interpreterCycle (s : State) : State :=
  if (fetchUnit s).ok = false then s.terminate (.fetchFault s.pc)
  else if (instructionDecoder s (fetchUnit s).instr).kind = .sentinel then s.terminate (.sentinel s.pc)
  else if (instructionDecoder s (fetchUnit s).instr).kind = .illegalOpcode then
    s.terminate (.illegalOpcode s.pc (fetchUnit s).instr)
  else if (instructionDecoder s (fetchUnit s).instr).kind = .illegalFunct then
    s.terminate (.illegalFunct s.pc (fetchUnit s).instr)
  else executeStages s (instructionDecoder s (fetchUnit s).instr)

end Sys2Proof.Machine
end

