-- ==== Sys2Proof/WellFormed.lean ====
section
/-!
DEFINITION. Which terms of `Instr` stand for a word of their own. The field types bound every field, so one check is
left: the all-zero word is the sentinel and never `sll $0,$0,0` (spec 30_encoding.md R64, R65).
-/

namespace Sys2Proof

/-- The instruction is not the `sll` whose word would be all zero (R64). -/
def Instr.wellFormed : Instr → Bool
  | .sll rs rt rd shamt => !(rs == 0 && rt == 0 && rd == 0 && shamt == 0)
  | .sentinel | .srl .. | .jr .. | .addu .. | .subu .. | .and .. | .or .. | .slt .. | .j _ | .jal _ => true
  | .beq .. | .bne .. | .addiu .. | .andi .. | .ori .. | .lui .. | .lw .. | .sw .. => true

/-- `Instr.wellFormed` as a proposition. -/
abbrev Instr.WellFormed (i : Instr) : Prop := i.wellFormed = true

end Sys2Proof
end

