-- ==== Sys2Proof/Safety.lean ====
section
/-!
DEFINITION. The terms claims are stated in: how a run ends (spec 60_exceptions.md R120, R132), what a cycle leaves
unchanged, and the invariant of the machine.
-/

namespace Sys2Proof.Machine

/-! ### How a run ends -/

/-- The class column of R120. -/
inductive EndClass where
  | normalEnd
  | faultEnd
  | hostEnd
  | noRun
deriving DecidableEq, Repr

/-- The code column of R120. -/
def Cause.code : Cause → Nat
  | .sentinel _ => 1
  | .illegalOpcode _ _ => 2
  | .illegalFunct _ _ => 3
  | .memoryAccess _ _ => 4
  | .fetchFault _ => 5
  | .hostQuit _ => 6
  | .programTooLarge _ => 7
  | .imageMalformed _ => 8

/-- The class of each cause (R120, R132). -/
def Cause.endClass : Cause → EndClass
  | .sentinel _ => .normalEnd
  | .illegalOpcode _ _ | .illegalFunct _ _ | .memoryAccess _ _ | .fetchFault _ => .faultEnd
  | .hostQuit _ => .hostEnd
  | .programTooLarge _ | .imageMalformed _ => .noRun

/-- The pc a cause of a run records (R120); none for the load-time causes. -/
def Cause.pc? : Cause → Option Word
  | .sentinel pc | .illegalOpcode pc _ | .illegalFunct pc _ | .memoryAccess pc _ | .fetchFault pc | .hostQuit pc => some pc
  | .programTooLarge _ | .imageMalformed _ => none

/-- A program finishes: the run has ended with cause SENTINEL (R132). -/
def Finished (s : State) : Prop := s.run = .terminated ∧ ∃ pc, s.cause = some (.sentinel pc)

/-- A safe state: the run has not met a fault end (R101, R132). -/
def Safe (s : State) : Prop := ∀ c, s.cause = some c → c.endClass ≠ .faultEnd

/-- From `s` the program finishes within some number of steps. -/
def Finishes (s : State) : Prop := ∃ k t, Host.Core.run Sys2Proof.core k s = .next t ∧ Finished t

/-! ### What a step leaves unchanged -/

/-- Every byte of memory reads as before. -/
def SameMemory (s t : State) : Prop := ∀ a, t.mem.readByte a = s.mem.readByte a

/-- Every byte outside the four of the word at `ea` reads as before. -/
def SameMemoryOutside (ea : Word) (s t : State) : Prop :=
  ∀ a, (a < ea.toNat ∨ ea.toNat + 4 ≤ a) → t.mem.readByte a = s.mem.readByte a

/-- Every register reads as before. -/
def SameRegs (s t : State) : Prop := ∀ r, t.readReg r = s.readReg r

/-- Every register but one reads as before. -/
def SameRegsExcept (rd : RegIndex) (s t : State) : Prop := ∀ r, r ≠ rd → t.readReg r = s.readReg r

/-- Configuration, flags and the host's lines are as before. -/
def SameSetting (s t : State) : Prop :=
  t.cfg = s.cfg ∧ t.flags = s.flags ∧ t.hostLines = s.hostLines ∧ t.hostReads = s.hostReads

/-- The run state, the cause and the setting are as before. -/
def SameRun (s t : State) : Prop := t.run = s.run ∧ t.cause = s.cause ∧ SameSetting s t

/-- Exactly one report is emitted, that of the cycle at `s` (R97). -/
def ReportsCycle (regW : Option (RegIndex × Word)) (memW : Option (Word × Word)) (s t : State) : Prop :=
  t.events = s.events ++
    [.report { fetchAddr := s.pc, word := s.fetchedWord, newPc := t.pc, regChanged := regW, memChanged := memW }]

/-- `t` is `s` after a cycle whose whole effect is: `rd` takes `v` (nothing if `rd` is register 0), the pc takes
`npc`, and the cycle is reported. -/
def WritesRegister (rd : RegIndex) (v npc : Word) (s t : State) : Prop :=
  t.readReg rd = (if rd = 0 then 0#32 else v) ∧ SameRegsExcept rd s t ∧ SameMemory s t ∧ t.pc = npc ∧ SameRun s t ∧
    ReportsCycle (if rd = 0 then none else some (rd, v)) none s t

/-- `t` is `s` after a cycle whose whole effect is the pc and the report. -/
def WritesPcOnly (npc : Word) (s t : State) : Prop :=
  SameRegs s t ∧ SameMemory s t ∧ t.pc = npc ∧ SameRun s t ∧ ReportsCycle none none s t

/-- `t` is `s` after a cycle that stores `v` at `ea` and does nothing else but the pc and the report. -/
def StoresWord (ea v npc : Word) (s t : State) : Prop :=
  t.mem.readWord ea.toNat = v ∧ SameMemoryOutside ea s t ∧ SameRegs s t ∧ t.pc = npc ∧ SameRun s t ∧
    ReportsCycle none (some (ea, v)) s t

/-- `t` is `s` after a cycle that terminates with cause `c`: the run state and the cause, the diagnostic of
MEMORY_ACCESS, and nothing else (R96, R130). -/
def TerminatesWith (c : Cause) (s t : State) : Prop :=
  t.run = .terminated ∧ t.cause = some c ∧ SameRegs s t ∧ SameMemory s t ∧ t.pc = s.pc ∧ SameSetting s t ∧
    t.events = s.events ++ c.diagnostics

/-! ### The instruction a word's fields make -/

/-- An R-format instruction of the fields of R55. -/
def ofR (mk : RegIndex → RegIndex → RegIndex → BitVec 5 → Instr) (w : Word) : Instr :=
  mk (w.extractLsb' 21 5).toFin (w.extractLsb' 16 5).toFin (w.extractLsb' 11 5).toFin (w.extractLsb' 6 5)

/-- An I-format instruction of the fields of R56. -/
def ofI (mk : RegIndex → RegIndex → BitVec 16 → Instr) (w : Word) : Instr :=
  mk (w.extractLsb' 21 5).toFin (w.extractLsb' 16 5).toFin (w.extractLsb' 0 16)

/-- A J-format instruction of the field of R57. -/
def ofJ (mk : BitVec 26 → Instr) (w : Word) : Instr := mk (w.extractLsb' 0 26)

/-- The legal opcodes (R62). -/
def legalOpcodes : List Nat := [0, 2, 3, 4, 5, 9, 12, 13, 15, 35, 43]

/-- The 53 illegal opcodes as R66 lists them. -/
def illegalOpcodes : List Nat :=
  [1, 6, 7, 8, 10, 11, 14] ++ List.range' 16 19 ++ List.range' 36 7 ++ List.range' 44 20

/-- The legal functs of opcode 0 (R63). -/
def legalFuncts : List Nat := [0, 2, 8, 33, 35, 36, 37, 42]

/-! ### A cycle about to run -/

/-- The next step of `s` is a cycle on `t`: the machine runs and the host lets the cycle run (R94, R100). -/
def RunsCycle (s t : State) : Prop := s.run = .running ∧ s.hostTurn = .proceed t

/-- The word `k` of memory (10_state.md R29). -/
def State.memWord (s : State) (k : Nat) : Word := s.mem.readWord (s.cfg.instrBase.toNat + 4 * k)

/-! ### The invariant -/

/-- Every listed byte lies in the memory image (R29, R35). -/
def InImage (s : State) : Prop := ∀ c ∈ s.mem, s.cfg.instrBase.toNat ≤ c.1 ∧ c.1 < s.cfg.memEnd

/-- The cause is recorded exactly when the run has ended, it is a cause of a run, and its pc is the machine's (R31,
R120, R130). -/
def CauseLegal (s : State) : Prop :=
  (s.run = .running ∧ s.cause = none) ∨ (s.run = .terminated ∧ ∃ c, s.cause = some c ∧ c.pc? = some s.pc)

/-- What every reachable state satisfies. -/
structure Inv (s : State) : Prop where
  /-- The parameters meet R7's constraints. -/
  cfgWf : s.cfg.Wf
  /-- Memory is in canonical form. -/
  memWf : s.mem.wf
  /-- Storage is only in the image. -/
  inImage : InImage s
  /-- The storage of register 0 is 0 (10_state.md R19). -/
  regZero : s.regs[0] = 0#32
  /-- Run state and cause fit. -/
  causeLegal : CauseLegal s

end Sys2Proof.Machine
end

