-- ==== Sys2Proof/Certificates/Slice0/Obligations.lean ====
section
/-!
DEFINITION. The statements for the provers. Each docstring names the rule of spec/ it formalises; terms such as
WritesRegister and TerminatesWith are those of Safety.lean and carry the frame.
-/

open Sys2Proof Sys2Proof.Machine

/-! ### Encoding -/

/-- 95_test_vectors.md S1: encoding fields into a word and decoding it gives the fields back, for every instruction. -/
def Obligations.DecodeOfEncodeIsIdentity : Prop :=
  ∀ i : Instr, i.WellFormed → decode (encode i) = .ok i

/-- No bit of a word is dropped: a word that decodes is the encoding of what it decodes to, which is well-formed. -/
def Obligations.EncodeOfDecodeIsIdentity : Prop :=
  ∀ (w : Word) (i : Instr), decode w = .ok i → encode i = w ∧ i.WellFormed

/-- 30_encoding.md R64, R69: every word is exactly one of the sentinel, an instruction, ILLEGAL_OPCODE, ILLEGAL_FUNCT. -/
def Obligations.EveryWordHasOneVerdict : Prop :=
  ∀ w : Word,
    (decode w = .ok .sentinel ↔ w = 0#32) ∧
    (decode w = .error .illegalOpcode ↔ (w.extractLsb' 26 6).toNat ∉ legalOpcodes) ∧
    (decode w = .error .illegalFunct ↔
      w ≠ 0#32 ∧ w.extractLsb' 26 6 = 0#6 ∧ (w.extractLsb' 0 6).toNat ∉ legalFuncts) ∧
    ((∃ i, decode w = .ok i ∧ i ≠ .sentinel) ↔
      w ≠ 0#32 ∧ (w.extractLsb' 26 6).toNat ∈ legalOpcodes ∧
        (w.extractLsb' 26 6 = 0#6 → (w.extractLsb' 0 6).toNat ∈ legalFuncts))

/-- Words written out in 95_test_vectors.md S1 and 30_encoding.md R72 decode to the instructions they stand for. -/
def Obligations.SampleWordsDecode : Prop :=
  decode 0x00221821#32 = .ok (.addu 1 2 3 0) ∧ decode 0x00042F02#32 = .ok (.srl 0 4 5 28) ∧
    decode 0x2508FFFF#32 = .ok (.addiu 8 8 0xFFFF#16) ∧ decode 0x0C100004#32 = .ok (.jal 0x100004#26) ∧
    decode 0x00000025#32 = .ok (.or 0 0 0 0) ∧ decode 0x8D0A0004#32 = .ok (.lw 8 10 4) ∧
    decode 0x1500FFFD#32 = .ok (.bne 8 0 0xFFFD#16) ∧ decode 0x00000000#32 = .ok .sentinel

/-- The opcode table's bits, laid out big-endian (20_memory.md R43), give the decoder the same word. -/
def Obligations.TableWordDecodesAsWord : Prop :=
  ∀ w : Word, decodeTableWord 32 w.toNat = (decode w).toOption

/-- The J target as 44_control_transfer.md and 30_encoding.md R61 describe it: a multiple of 4 in the jump's own
segment, the field in between (R61's last sentence is the spec's own inference). -/
def Obligations.JumpTargetKeepsSegment : Prop :=
  ∀ (pc : Word) (tgt : BitVec 26),
    (jumpTarget pc tgt).toNat % 4 = 0 ∧ (jumpTarget pc tgt).toNat / 2 ^ 28 = pc.toNat / 2 ^ 28 ∧
      (jumpTarget pc tgt).toNat % 2 ^ 28 = 4 * tgt.toNat

/-! ### The sentinel and the illegal words -/

/-- R65, R121: the sentinel ends the run with its pc; it reads no register and writes nothing. -/
def Obligations.SentinelEndsTheRun : Prop :=
  (∀ s, ∃ t, exec .sentinel s = .next t ∧ TerminatesWith (.sentinel s.pc) s t) ∧
  ∀ s t, RunsCycle s t → FetchOk t.cfg t.pc → t.fetchedWord = 0#32 →
    ∃ u, step s = .next u ∧ TerminatesWith (.sentinel t.pc) t u

/-- R66, R122: a fetched word with an opcode outside the map ends the run, with the pc and the word; these are the 53
opcodes R66 lists. -/
def Obligations.IllegalOpcodeEndsTheRun : Prop :=
  (illegalOpcodes.length = 53 ∧ ∀ n < 64, n ∈ illegalOpcodes ↔ n ∉ legalOpcodes) ∧
  ∀ s t, RunsCycle s t → FetchOk t.cfg t.pc →
    (t.fetchedWord.extractLsb' 26 6).toNat ∉ legalOpcodes →
    ∃ u, step s = .next u ∧ TerminatesWith (.illegalOpcode t.pc t.fetchedWord) t u

/-- R67, R123: a fetched word of opcode 0, not zero, with one of the 56 unlisted functs ends the run, with the pc and
the word. -/
def Obligations.IllegalFunctEndsTheRun : Prop :=
  ((List.range 64).filter (fun n => n ∉ legalFuncts)).length = 56 ∧
  ∀ s t, RunsCycle s t → FetchOk t.cfg t.pc → t.fetchedWord ≠ 0#32 →
    t.fetchedWord.extractLsb' 26 6 = 0#6 → (t.fetchedWord.extractLsb' 0 6).toNat ∉ legalFuncts →
    ∃ u, step s = .next u ∧ TerminatesWith (.illegalFunct t.pc t.fetchedWord) t u

/-- R65, R132: a program finishes exactly where a running cycle fetches the sentinel; no fault end and no host end is a
finish. -/
def Obligations.OnlyTheSentinelFinishes : Prop :=
  ∀ s t : State, step s = .next t →
    (Finished t ↔ ∃ u, RunsCycle s u ∧ FetchOk u.cfg u.pc ∧ u.fetchedWord = 0#32)

/-! ### Register-register ALU instructions -/

/-- R102 sll. The all-zero word, which has sll's pattern, is the sentinel. -/
def Obligations.SllShiftsLeft : Prop :=
  decode 0#32 = .ok .sentinel ∧
  (∀ w : Word, w &&& 0xFC00003F#32 = 0x00000000#32 → w ≠ 0#32 → decode w = .ok (ofR .sll w)) ∧
  ∀ (rs rt rd : RegIndex) (shamt : BitVec 5) (s : State), ∃ t, exec (.sll rs rt rd shamt) s = .next t ∧
    WritesRegister rd (s.readReg rt <<< shamt.toNat) (s.pc + 4#32) s t

/-- R103 srl: zeros come in from bit 31. -/
def Obligations.SrlShiftsRightLogical : Prop :=
  (∀ w : Word, w &&& 0xFC00003F#32 = 0x00000002#32 → decode w = .ok (ofR .srl w)) ∧
  ∀ (rs rt rd : RegIndex) (shamt : BitVec 5) (s : State), ∃ t, exec (.srl rs rt rd shamt) s = .next t ∧
    WritesRegister rd (s.readReg rt >>> shamt.toNat) (s.pc + 4#32) s t

/-- R104 addu. -/
def Obligations.AdduAdds : Prop :=
  (∀ w : Word, w &&& 0xFC00003F#32 = 0x00000021#32 → decode w = .ok (ofR .addu w)) ∧
  ∀ (rs rt rd : RegIndex) (shamt : BitVec 5) (s : State), ∃ t, exec (.addu rs rt rd shamt) s = .next t ∧
    WritesRegister rd (BitVec.ofNat 32 ((s.readReg rs).toNat + (s.readReg rt).toNat)) (s.pc + 4#32) s t

/-- R105 subu. -/
def Obligations.SubuSubtracts : Prop :=
  (∀ w : Word, w &&& 0xFC00003F#32 = 0x00000023#32 → decode w = .ok (ofR .subu w)) ∧
  ∀ (rs rt rd : RegIndex) (shamt : BitVec 5) (s : State), ∃ t, exec (.subu rs rt rd shamt) s = .next t ∧
    WritesRegister rd (BitVec.ofInt 32 ((s.readReg rs).toInt - (s.readReg rt).toInt)) (s.pc + 4#32) s t

/-- R106 and. -/
def Obligations.AndIsBitwise : Prop :=
  (∀ w : Word, w &&& 0xFC00003F#32 = 0x00000024#32 → decode w = .ok (ofR .and w)) ∧
  ∀ (rs rt rd : RegIndex) (shamt : BitVec 5) (s : State), ∃ t, exec (.and rs rt rd shamt) s = .next t ∧
    WritesRegister rd (s.readReg rs &&& s.readReg rt) (s.pc + 4#32) s t

/-- R107 or. -/
def Obligations.OrIsBitwise : Prop :=
  (∀ w : Word, w &&& 0xFC00003F#32 = 0x00000025#32 → decode w = .ok (ofR .or w)) ∧
  ∀ (rs rt rd : RegIndex) (shamt : BitVec 5) (s : State), ∃ t, exec (.or rs rt rd shamt) s = .next t ∧
    WritesRegister rd (s.readReg rs ||| s.readReg rt) (s.pc + 4#32) s t

/-- R108 slt: WRAP_SIGN is bit 31 of the wrapped difference, TRUE_LESS the signed comparison; the reference
configuration takes WRAP_SIGN. That the two agree unless the subtraction overflows is R108's own inference ("derived
from two's-complement overflow"), not a rule. -/
def Obligations.SltFollowsTheReading : Prop :=
  Config.reference.sltOverflow = .wrapSign ∧
  (∀ vs vt : Word, ¬ (vs.getLsbD 31 ≠ vt.getLsbD 31 ∧ (vs - vt).getLsbD 31 ≠ vs.getLsbD 31) →
    sltResult .wrapSign vs vt = sltResult .trueLess vs vt) ∧
  (∀ w : Word, w &&& 0xFC00003F#32 = 0x0000002A#32 → decode w = .ok (ofR .slt w)) ∧
  (∀ (rs rt rd : RegIndex) (shamt : BitVec 5) (s : State), s.cfg.sltOverflow = .wrapSign →
    ∃ t, exec (.slt rs rt rd shamt) s = .next t ∧
      WritesRegister rd (if 2 ^ 31 ≤ (s.readReg rs - s.readReg rt).toNat then 1#32 else 0#32) (s.pc + 4#32) s t) ∧
  (∀ (rs rt rd : RegIndex) (shamt : BitVec 5) (s : State), s.cfg.sltOverflow = .trueLess →
    ∃ t, exec (.slt rs rt rd shamt) s = .next t ∧
      WritesRegister rd (if (s.readReg rs).toInt < (s.readReg rt).toInt then 1#32 else 0#32) (s.pc + 4#32) s t)

/-- R108's inference: the two readings differ exactly where the subtraction overflows. -/
def Obligations.SltReadingsDifferOnOverflowOnly : Prop :=
  ∀ vs vt : Word, sltResult .wrapSign vs vt = sltResult .trueLess vs vt ↔
    ¬ (vs.msb ≠ vt.msb ∧ (vs - vt).msb ≠ vs.msb)

/-- 95_test_vectors.md: every instruction but slt has the same effect under both values of SLT_OVERFLOW. -/
def Obligations.OnlySltDependsOnTheReading : Prop :=
  ∀ (i : Instr) (s : State) (m : SltOverflow), (∀ rs rt rd shamt, i ≠ .slt rs rt rd shamt) →
    ∃ t, exec i s = .next t ∧
      exec i { s with cfg := { s.cfg with sltOverflow := m } } = .next { t with cfg := { t.cfg with sltOverflow := m } }

/-! ### Register-immediate ALU instructions -/

/-- R58: the immediate keeps its signed value; 0x8000 is -32768 and 0x7FFF is 32767. -/
def Obligations.ImmediateKeepsItsSignedValue : Prop :=
  (∀ imm16 : BitVec 16, (signExtend32 imm16).toInt = imm16.toInt) ∧
    (signExtend32 0x8000#16).toInt = -32768 ∧ (signExtend32 0x7FFF#16).toInt = 32767

/-- R109 addiu: the immediate is sign-extended. -/
def Obligations.AddiuAddsSignExtended : Prop :=
  (∀ w : Word, w &&& 0xFC000000#32 = 0x24000000#32 → decode w = .ok (ofI .addiu w)) ∧
  ∀ (rs rt : RegIndex) (imm16 : BitVec 16) (s : State), ∃ t, exec (.addiu rs rt imm16) s = .next t ∧
    WritesRegister rt (s.readReg rs + imm16.signExtend 32) (s.pc + 4#32) s t

/-- R110 andi: the immediate is sign-extended, not zero-extended. -/
def Obligations.AndiSignExtends : Prop :=
  (∀ w : Word, w &&& 0xFC000000#32 = 0x30000000#32 → decode w = .ok (ofI .andi w)) ∧
  ∀ (rs rt : RegIndex) (imm16 : BitVec 16) (s : State), ∃ t, exec (.andi rs rt imm16) s = .next t ∧
    WritesRegister rt (s.readReg rs &&& imm16.signExtend 32) (s.pc + 4#32) s t

/-- R111 ori: the immediate is sign-extended, not zero-extended. -/
def Obligations.OriSignExtends : Prop :=
  (∀ w : Word, w &&& 0xFC000000#32 = 0x34000000#32 → decode w = .ok (ofI .ori w)) ∧
  ∀ (rs rt : RegIndex) (imm16 : BitVec 16) (s : State), ∃ t, exec (.ori rs rt imm16) s = .next t ∧
    WritesRegister rt (s.readReg rs ||| imm16.signExtend 32) (s.pc + 4#32) s t

/-- R112 lui: the field in bits 31 to 16, zeros below. -/
def Obligations.LuiPlacesUpperHalf : Prop :=
  (∀ w : Word, w &&& 0xFC000000#32 = 0x3C000000#32 → decode w = .ok (ofI .lui w)) ∧
  ∀ (rs rt : RegIndex) (imm16 : BitVec 16) (s : State), ∃ t, exec (.lui rs rt imm16) s = .next t ∧
    WritesRegister rt (imm16 ++ 0#16) (s.pc + 4#32) s t

/-! ### Loads and stores -/

/-- R113 lw: a valid address loads the word; an invalid one terminates, with rt = 0 too. -/
def Obligations.LwLoadsOrTerminates : Prop :=
  (∀ w : Word, w &&& 0xFC000000#32 = 0x8C000000#32 → decode w = .ok (ofI .lw w)) ∧
  ∀ (rs rt : RegIndex) (imm16 : BitVec 16) (s : State) (ea : Word), ea = s.readReg rs + imm16.signExtend 32 →
    (s.cfg.dataBase ≤ ea.toNat ∧ ea.toNat < s.cfg.dataEnd ∧ ea.toNat % 4 = 0 →
      ∃ t, exec (.lw rs rt imm16) s = .next t ∧
        WritesRegister rt (s.mem.readWord ea.toNat) (s.pc + 4#32) s t) ∧
    (¬ (s.cfg.dataBase ≤ ea.toNat ∧ ea.toNat < s.cfg.dataEnd ∧ ea.toNat % 4 = 0) →
      ∃ t, exec (.lw rs rt imm16) s = .next t ∧ TerminatesWith (.memoryAccess s.pc ea) s t)

/-- R114 sw: a valid address takes the word of rt, reported as the single change; an invalid one terminates. -/
def Obligations.SwStoresOrTerminates : Prop :=
  (∀ w : Word, w &&& 0xFC000000#32 = 0xAC000000#32 → decode w = .ok (ofI .sw w)) ∧
  ∀ (rs rt : RegIndex) (imm16 : BitVec 16) (s : State) (ea : Word), s.mem.wf →
    ea = s.readReg rs + imm16.signExtend 32 →
    (s.cfg.dataBase ≤ ea.toNat ∧ ea.toNat < s.cfg.dataEnd ∧ ea.toNat % 4 = 0 →
      ∃ t, exec (.sw rs rt imm16) s = .next t ∧ StoresWord ea (s.readReg rt) (s.pc + 4#32) s t) ∧
    (¬ (s.cfg.dataBase ≤ ea.toNat ∧ ea.toNat < s.cfg.dataEnd ∧ ea.toNat % 4 = 0) →
      ∃ t, exec (.sw rs rt imm16) s = .next t ∧ TerminatesWith (.memoryAccess s.pc ea) s t)

/-- R40, R124: lw and sw at an address that is not valid record the pc and the address and emit them as the diagnostic,
and leave registers, memory and pc as they were. -/
def Obligations.InvalidAccessIsDiagnosed : Prop :=
  ∀ (rs rt : RegIndex) (imm16 : BitVec 16) (s : State) (ea : Word) (i : Instr),
    i = .lw rs rt imm16 ∨ i = .sw rs rt imm16 → ea = s.readReg rs + imm16.signExtend 32 →
    ¬ (s.cfg.dataBase ≤ ea.toNat ∧ ea.toNat < s.cfg.dataEnd ∧ ea.toNat % 4 = 0) →
    ∃ t, exec i s = .next t ∧ t.run = .terminated ∧ t.cause = some (.memoryAccess s.pc ea) ∧
      t.events = s.events ++ [.diagnostic s.pc ea] ∧ t.regs = s.regs ∧ t.mem = s.mem ∧ t.pc = s.pc

/-- 95_test_vectors.md S8: a word stored and then loaded from the same address comes back, and the store alone reports
the address. -/
def Obligations.LoadReturnsTheStoredWord : Prop :=
  ∀ (rs rt rs' rd : RegIndex) (imm imm' : BitVec 16) (s : State) (ea : Word), s.mem.wf →
    ea = s.readReg rs + imm.signExtend 32 → ValidData s.cfg ea → s.readReg rs' + imm'.signExtend 32 = ea →
    ∃ t u, exec (.sw rs rt imm) s = .next t ∧ exec (.lw rs' rd imm') t = .next u ∧
      u.readReg rd = (if rd = 0 then 0#32 else s.readReg rt) ∧
      ReportsCycle none (some (ea, s.readReg rt)) s t ∧
      ReportsCycle (if rd = 0 then none else some (rd, s.readReg rt)) none t u

/-- R52's inference: a word stored is what a fetch from its address decodes, from the next cycle on. -/
def Obligations.FetchSeesTheStoredWord : Prop :=
  ∀ (rs rt : RegIndex) (imm16 : BitVec 16) (s : State) (ea : Word) (i : Instr), s.mem.wf →
    ea = s.readReg rs + imm16.signExtend 32 → ValidData s.cfg ea → decode (s.readReg rt) = .ok i →
    ∃ t, exec (.sw rs rt imm16) s = .next t ∧ FetchOk t.cfg ea ∧ (t.setPc ea).fetchDecode = .ok i

/-- R43, R44 (D19): the bytes of a stored word lie in memory high byte first. -/
def Obligations.StoredBytesAreBigEndian : Prop :=
  ∀ (rs rt : RegIndex) (imm16 : BitVec 16) (s : State) (ea : Word), s.mem.wf →
    ea = s.readReg rs + imm16.signExtend 32 → ValidData s.cfg ea →
    ∃ t, exec (.sw rs rt imm16) s = .next t ∧
      ∀ k < 4, t.mem.readByte (ea.toNat + k) = (s.readReg rt).extractLsb' (8 * (3 - k)) 8

/-- R41's inference: where MEM_END ≤ 2^31, reading the address as signed gives the same verdict. -/
def Obligations.SignedBoundsAgree : Prop :=
  ∀ (c : Config) (ea : Word), c.memEnd ≤ 2 ^ 31 →
    (ValidData c ea ↔ (c.dataBase : Int) ≤ ea.toInt ∧ ea.toInt < c.dataEnd ∧ ea.toNat % 4 = 0)

/-! ### Control transfer -/

/-- R115 beq. -/
def Obligations.BeqBranchesOnEqual : Prop :=
  (∀ w : Word, w &&& 0xFC000000#32 = 0x10000000#32 → decode w = .ok (ofI .beq w)) ∧
  ∀ (rs rt : RegIndex) (imm16 : BitVec 16) (s : State), ∃ t, exec (.beq rs rt imm16) s = .next t ∧
    WritesPcOnly (if s.readReg rs = s.readReg rt then s.pc + 4#32 + (imm16.signExtend 32 <<< 2) else s.pc + 4#32) s t

/-- R116 bne. -/
def Obligations.BneBranchesOnUnequal : Prop :=
  (∀ w : Word, w &&& 0xFC000000#32 = 0x14000000#32 → decode w = .ok (ofI .bne w)) ∧
  ∀ (rs rt : RegIndex) (imm16 : BitVec 16) (s : State), ∃ t, exec (.bne rs rt imm16) s = .next t ∧
    WritesPcOnly (if s.readReg rs = s.readReg rt then s.pc + 4#32 else s.pc + 4#32 + (imm16.signExtend 32 <<< 2)) s t

/-- R117 j: the segment is that of the jump's own pc. -/
def Obligations.JJumps : Prop :=
  (∀ w : Word, w &&& 0xFC000000#32 = 0x08000000#32 → decode w = .ok (ofJ .j w)) ∧
  ∀ (target26 : BitVec 26) (s : State), ∃ t, exec (.j target26) s = .next t ∧
    WritesPcOnly ((s.pc &&& 0xF0000000#32) ||| (target26.setWidth 32 <<< 2)) s t

/-- R118 jal: register 31 always takes pc + 4. -/
def Obligations.JalLinksAndJumps : Prop :=
  (∀ w : Word, w &&& 0xFC000000#32 = 0x0C000000#32 → decode w = .ok (ofJ .jal w)) ∧
  ∀ (target26 : BitVec 26) (s : State), ∃ t, exec (.jal target26) s = .next t ∧
    WritesRegister 31 (s.pc + 4#32) ((s.pc &&& 0xF0000000#32) ||| (target26.setWidth 32 <<< 2)) s t

/-- R119 jr: the pc takes the register's value, whatever it is. -/
def Obligations.JrTakesTheRegister : Prop :=
  (∀ w : Word, w &&& 0xFC00003F#32 = 0x00000008#32 → decode w = .ok (ofR .jr w)) ∧
  ∀ (rs rt rd : RegIndex) (shamt : BitVec 5) (s : State), ∃ t, exec (.jr rs rt rd shamt) s = .next t ∧
    WritesPcOnly (s.readReg rs) s t

/-- R25's inference: from an aligned pc every step but a jr's leaves an aligned pc. -/
def Obligations.OnlyJrMisalignsThePc : Prop :=
  ∀ (s t : State), step s = .next t → s.pc.toNat % 4 = 0 →
    (∀ rs rt rd shamt, decode s.fetchedWord ≠ .ok (.jr rs rt rd shamt)) → t.pc.toNat % 4 = 0

/-! ### The cycle -/

/-- R94: when the four bytes at a fetchable pc decode to an instruction, the step is that instruction's effect on the
state after the host's turn; the pc's advance is part of the effect. -/
def Obligations.StepRunsTheDecodedInstruction : Prop :=
  ∀ (s t : State) (i : Instr), RunsCycle s t → FetchOk t.cfg t.pc →
    decodeBytes [t.mem.readByte t.pc.toNat, t.mem.readByte (t.pc.toNat + 1), t.mem.readByte (t.pc.toNat + 2),
      t.mem.readByte (t.pc.toNat + 3)] = .ok (i, []) →
    step s = exec i t

/-- R94: the per-instruction step is the cycle of the blocks of 40_pipeline.md. -/
def Obligations.StepIsThePipelineCycle : Prop :=
  ∀ s t : State, RunsCycle s t → step s = .next (interpreterCycle t)

/-- R125: a misaligned pc or a pc outside the image ends the run before decode. -/
def Obligations.BadFetchEndsTheRun : Prop :=
  ∀ s t : State, RunsCycle s t →
    t.pc.toNat % 4 ≠ 0 ∨ t.pc.toNat < t.cfg.instrBase.toNat ∨ t.cfg.memEnd ≤ t.pc.toNat →
    ∃ u, step s = .next u ∧ TerminatesWith (.fetchFault t.pc) t u

/-- R126, R100: in interactive mode a line that begins with q ends the run before the fetch, with the pc that would have
run next. Where the line comes from and what taking it leaves (the queue, then the free line, and the count) are the
model's choice (log 7). -/
def Obligations.HostQuitEndsTheRun : Prop :=
  ∀ (s : State) (rest : HostLine), s.run = .running → s.flags.interactive = true → s.hostLine = 'q' :: rest →
    ∃ u, step s = .next u ∧ TerminatesWith (.hostQuit s.pc) s.takeLine u

/-- R100: without interactive mode no line is read; in it, any line that does not begin with q lets the cycle run, and
the line is all the host's turn takes. -/
def Obligations.OtherLinesLetTheCycleRun : Prop :=
  (∀ s : State, s.run = .running → s.flags.interactive = false → RunsCycle s s) ∧
  (∀ (s : State) (l : HostLine) (ls : List HostLine), s.run = .running → s.flags.interactive = true →
    s.hostLines = l :: ls → l.head? ≠ some 'q' →
    RunsCycle s { s with hostLines := ls, hostReads := s.hostReads + 1 })

/-- R100, I9: with no line supplied the choice is the host's: the free line, whatever it says, quits or lets the cycle
run, and nothing else can happen (log 7). -/
def Obligations.FreeLineIsTheHostsChoice : Prop :=
  ∀ s : State, s.run = .running → s.flags.interactive = true → s.hostLines = [] →
    if (Config.freeHostLine s.hostReads).head? = some 'q' then
      ∃ u, step s = .next u ∧ TerminatesWith (.hostQuit s.pc) { s with hostReads := s.hostReads + 1 } u
    else RunsCycle s { s with hostReads := s.hostReads + 1 }

/-- R131: no step is enabled once TERMINATED (log 1: the interface's fault stands for a step that is not enabled). -/
def Obligations.NoStepOnceTerminated : Prop :=
  ∀ s : State, s.run = .terminated → step s = .fault .runEnded

/-- R94, R95: a running machine always has a next state: no word, no operand and no pc stops the model. -/
def Obligations.RunningMachineAlwaysSteps : Prop :=
  ∀ s : State, s.run = .running → ∃ t, step s = .next t

/-- R96: a step that ends the run commits nothing: registers, memory and pc are those before it, and the cause is
recorded with that pc. -/
def Obligations.TerminationIsPrecise : Prop :=
  ∀ s t : State, step s = .next t → t.run = .terminated →
    t.regs = s.regs ∧ t.mem = s.mem ∧ t.pc = s.pc ∧ ∃ c, t.cause = some c ∧ c.pc? = some s.pc

/-- R97, R124: a step that ends the run emits no report, and the diagnostic for MEMORY_ACCESS alone. -/
def Obligations.TerminationEmitsOnlyTheDiagnostic : Prop :=
  ∀ s t : State, step s = .next t → t.run = .terminated →
    (∃ pc addr, t.cause = some (.memoryAccess pc addr) ∧ t.events = s.events ++ [.diagnostic pc addr]) ∨
    ((∀ pc addr, t.cause ≠ some (.memoryAccess pc addr)) ∧ t.events = s.events)

/-- R12, R97: a step that completes emits one report, and the report is the whole change: at most one register, never
register 0; at most one word, at a valid address; the pc. -/
def Obligations.ReportIsTheWholeChange : Prop :=
  ∀ s t : State, s.mem.wf → step s = .next t → t.run = .running →
    ∃ regW memW, ReportsCycle regW memW s t ∧
      (match regW with
        | none => SameRegs s t
        | some (r, v) => r ≠ 0 ∧ t.readReg r = v ∧ SameRegsExcept r s t) ∧
      (match memW with
        | none => SameMemory s t
        | some (ea, v) => ValidData s.cfg ea ∧ t.mem.readWord ea.toNat = v ∧ SameMemoryOutside ea s t) ∧
      t.cause = s.cause ∧ t.cfg = s.cfg ∧ t.flags = s.flags

/-- R149: a run of k completed cycles has emitted k reports more. -/
def Obligations.OneReportPerCompletedCycle : Prop :=
  ∀ (k : Nat) (s t : State), Host.Core.run Sys2Proof.core k s = .next t → t.run = .running →
    ∃ rs : List Report, rs.length = k ∧ t.events = s.events ++ rs.map Event.report

/-- R99: the print flags and debugging-enabled change nothing but themselves. -/
def Obligations.PrintFlagsDoNotMatter : Prop :=
  ∀ (s : State) (f : HostFlags), f.interactive = s.flags.interactive →
    (∀ t, step s = .next t → step { s with flags := f } = .next { t with flags := f }) ∧
    (∀ e, step s = .fault e → step { s with flags := f } = .fault e)

/-! ### Invariants -/

/-- Every step keeps the invariant: parameters, canonical memory inside the image, register 0, run state and cause. -/
def Obligations.EveryStepKeepsInv : Prop :=
  ∀ s t : State, Inv s → step s = .next t → Inv t

/-- The reset state, of the configuration the model chose (logs 2, 10), has the invariant. -/
def Obligations.ResetHasInv : Prop := Inv State.reset

/-- Every boot that starts a machine of a legal configuration gives a state with the invariant. -/
def Obligations.BootEstablishesInv : Prop :=
  ∀ (cfg : Config) (flags : HostFlags) (lines : List HostLine) (image : List Byte) (s : State), cfg.Wf →
    boot cfg flags lines image = .started s → Inv s

/-- R39, R52: over any number of steps no byte of the instruction region changes. -/
def Obligations.InstructionRegionNeverChanges : Prop :=
  ∀ (k : Nat) (s t : State), s.mem.wf → Host.Core.run Sys2Proof.core k s = .next t →
    ∀ a < s.cfg.dataBase, t.mem.readByte a = s.mem.readByte a

/-! ### Reset and boot -/

/-- R137, R138: after boot x[29] is MEM_END, every other register 0, the pc INSTR_BASE, RUNNING, no cause. Where MEM_END
is 2^32, x[29] is MEM_END modulo 2^32, that is 0: the model's reading (log 12). -/
def Obligations.BootSetsRegistersAndPc : Prop :=
  ∀ (cfg : Config) (flags : HostFlags) (lines : List HostLine) (image : List Byte) (s : State), cfg.Wf →
    boot cfg flags lines image = .started s →
    s.readReg 29 = BitVec.ofNat 32 (cfg.instrBase.toNat + 4 * (cfg.numInstr + cfg.numData)) ∧
      (∀ r, r ≠ 29 → s.readReg r = 0#32) ∧ s.pc = cfg.instrBase ∧ s.run = .running ∧ s.cause = none

/-- R139, R140: memory after boot holds the image's words, big-endian, in order, and 0 in every other word. -/
def Obligations.BootLoadsTheImage : Prop :=
  ∀ (cfg : Config) (flags : HostFlags) (lines : List HostLine) (image : List Byte) (s : State), cfg.Wf →
    boot cfg flags lines image = .started s →
    (∀ k < image.length / 4, s.memWord k =
      image.getD (4 * k) 0 ++ image.getD (4 * k + 1) 0 ++ image.getD (4 * k + 2) 0 ++ image.getD (4 * k + 3) 0) ∧
    (∀ k, image.length / 4 ≤ k → k < cfg.numInstr + cfg.numData → s.memWord k = 0#32)

/-- R127 and the capacity of R141: which images start a run, and what the others report. -/
def Obligations.BootRefusesBadImages : Prop :=
  ∀ (cfg : Config) (flags : HostFlags) (lines : List HostLine) (image : List Byte),
    (image.length % 4 ≠ 0 → boot cfg flags lines image = .noRun (.imageMalformed image.length)) ∧
    (image.length % 4 = 0 → cfg.numInstr < image.length / 4 →
      boot cfg flags lines image = .noRun (.programTooLarge (image.length / 4))) ∧
    (image.length % 4 = 0 → image.length / 4 ≤ cfg.numInstr → ∃ s, boot cfg flags lines image = .started s)

/-- State.reset is the boot of the empty image in the reference configuration (the configuration is the model's choice
among the spec's parameters, and so are the flags, the lines and the empty events: logs 2, 7, 8, 9, 10). -/
def Obligations.ResetIsTheEmptyBoot : Prop :=
  boot Config.reference HostFlags.off [] [] = .started State.reset ∧ State.reset.pc = 0x00400000#32 ∧
    State.reset.readReg 29 = 0x00404000#32 ∧ State.reset.mem = [] ∧ State.reset.run = .running

/-- R141's inference: the empty image ends at once with SENTINEL at INSTR_BASE, in every legal configuration. -/
def Obligations.EmptyImageEndsAtOnce : Prop :=
  ∀ (cfg : Config) (lines : List HostLine), cfg.Wf →
    ∃ s t, boot cfg HostFlags.off lines [] = .started s ∧ step s = .next t ∧
      TerminatesWith (.sentinel cfg.instrBase) s t

/-- A word placed with withFetchWord is what the very next step runs (log 11: the placing is the model's own). -/
def Obligations.PlacedWordRunsNext : Prop :=
  ∀ (s : State) (w : Word) (i : Instr), s.cfg.Wf → s.mem.wf → decode w = .ok i →
    ∃ t, RunsCycle (s.withFetchWord 32 w.toNat) t ∧ step (s.withFetchWord 32 w.toNat) = exec i t ∧
      t.regs = s.regs ∧ t.cfg = s.cfg ∧ t.fetchedWord = w
end

