-- ==== Sys2Proof/Laws/Decode.lean ====
section
/-!
SUPPORT. The laws of the encodings: each field of an encoded word is the field it was built from, a word is rebuilt from
its fields, and a word that matches a table row's mask has the row's opcode and funct.
-/

namespace Sys2Proof

/-- A field of a word, read bit by bit. -/
theorem extract_eq_of_bits (w : Word) (lo len : Nat) (x : BitVec len)
    (h : ∀ k, k < len → w.getLsbD (lo + k) = x.getLsbD k) : w.extractLsb' lo len = x := by
  ext k hk
  rw [BitVec.getElem_extractLsb', h k hk, BitVec.getLsbD_eq_getElem hk]

section
variable (funct op : BitVec 6) (rs rt rd : RegIndex) (shamt : BitVec 5) (imm : BitVec 16) (tgt : BitVec 26)

/-! ### Fields of R-format words (30_encoding.md R55) -/

@[simp] theorem opcodeField_encodeR : opcodeField (encodeR funct rs rt rd shamt) = 0#6 :=
  extract_eq_of_bits _ _ _ _ fun k hk => by
    simp only [encodeR, BitVec.getLsbD_append]
    rw [if_neg (by omega), if_neg (by omega), if_neg (by omega), if_neg (by omega), if_neg (by omega)]; simp

@[simp] theorem functField_encodeR : functField (encodeR funct rs rt rd shamt) = funct :=
  extract_eq_of_bits _ _ _ _ fun k hk => by
    simp only [encodeR, BitVec.getLsbD_append]
    rw [if_pos (by omega)]; congr 1; omega

@[simp] theorem shamtField_encodeR : shamtField (encodeR funct rs rt rd shamt) = shamt :=
  extract_eq_of_bits _ _ _ _ fun k hk => by
    simp only [encodeR, BitVec.getLsbD_append]
    rw [if_neg (by omega), if_pos (by omega)]; congr 1; omega

@[simp] theorem rdField_encodeR : rdField (encodeR funct rs rt rd shamt) = rd :=
  congrArg BitVec.toFin <| extract_eq_of_bits _ _ _ (regBits rd) fun k hk => by
    simp only [encodeR, BitVec.getLsbD_append]
    rw [if_neg (by omega), if_neg (by omega), if_pos (by omega)]; congr 1; omega

@[simp] theorem rtField_encodeR : rtField (encodeR funct rs rt rd shamt) = rt :=
  congrArg BitVec.toFin <| extract_eq_of_bits _ _ _ (regBits rt) fun k hk => by
    simp only [encodeR, BitVec.getLsbD_append]
    rw [if_neg (by omega), if_neg (by omega), if_neg (by omega), if_pos (by omega)]; congr 1; omega

@[simp] theorem rsField_encodeR : rsField (encodeR funct rs rt rd shamt) = rs :=
  congrArg BitVec.toFin <| extract_eq_of_bits _ _ _ (regBits rs) fun k hk => by
    simp only [encodeR, BitVec.getLsbD_append]
    rw [if_neg (by omega), if_neg (by omega), if_neg (by omega), if_neg (by omega), if_pos (by omega)]; congr 1; omega

/-! ### Fields of I-format words (R56) -/

@[simp] theorem opcodeField_encodeI : opcodeField (encodeI op rs rt imm) = op :=
  extract_eq_of_bits _ _ _ _ fun k hk => by
    simp only [encodeI, BitVec.getLsbD_append]
    rw [if_neg (by omega), if_neg (by omega), if_neg (by omega)]; congr 1; omega

@[simp] theorem rsField_encodeI : rsField (encodeI op rs rt imm) = rs :=
  congrArg BitVec.toFin <| extract_eq_of_bits _ _ _ (regBits rs) fun k hk => by
    simp only [encodeI, BitVec.getLsbD_append]
    rw [if_neg (by omega), if_neg (by omega), if_pos (by omega)]; congr 1; omega

@[simp] theorem rtField_encodeI : rtField (encodeI op rs rt imm) = rt :=
  congrArg BitVec.toFin <| extract_eq_of_bits _ _ _ (regBits rt) fun k hk => by
    simp only [encodeI, BitVec.getLsbD_append]
    rw [if_neg (by omega), if_pos (by omega)]; congr 1; omega

@[simp] theorem immField_encodeI : immField (encodeI op rs rt imm) = imm :=
  extract_eq_of_bits _ _ _ _ fun k hk => by
    simp only [encodeI, BitVec.getLsbD_append]
    rw [if_pos (by omega)]; congr 1; omega

/-! ### Fields of J-format words (R57) -/

@[simp] theorem opcodeField_encodeJ : opcodeField (encodeJ op tgt) = op :=
  extract_eq_of_bits _ _ _ _ fun k hk => by
    simp only [encodeJ, BitVec.getLsbD_append]
    rw [if_neg (by omega)]; congr 1; omega

@[simp] theorem targetField_encodeJ : targetField (encodeJ op tgt) = tgt :=
  extract_eq_of_bits _ _ _ _ fun k hk => by
    simp only [encodeJ, BitVec.getLsbD_append]
    rw [if_pos (by omega)]; congr 1; omega

end

/-! ### A word rebuilt from its fields -/

/-- A field as bits again. -/
theorem regBits_toFin (b : BitVec 5) : regBits b.toFin = b := rfl

/-- Where the opcode is known, bits 31 to 26 are its bits. -/
theorem getLsbD_of_opcode (w : Word) (op : BitVec 6) (h : opcodeField w = op) (k : Nat) (hk : 26 ≤ k) (hk' : k < 32) :
    w.getLsbD k = op.getLsbD (k - 26) := by
  have := congrArg (·.getLsbD (k - 26)) h
  simp only [opcodeField, BitVec.getLsbD_extractLsb'] at this
  rw [← this, show 26 + (k - 26) = k by omega]
  simp; omega

theorem encodeR_fields (w : Word) (h : opcodeField w = 0#6) :
    encodeR (functField w) (rsField w) (rtField w) (rdField w) (shamtField w) = w := by
  refine BitVec.eq_of_getLsbD_eq fun k hk => ?_
  simp only [encodeR, functField, rsField, rtField, rdField, shamtField, regBits_toFin, BitVec.getLsbD_append,
    BitVec.getLsbD_extractLsb']
  rcases Nat.lt_or_ge k 26 with h26 | h26
  · split
    · simp; omega
    · split
      · simp [show 6 + (k - 6) = k by omega]; omega
      · split
        · simp [show 11 + (k - 6 - 5) = k by omega]; omega
        · split
          · simp [show 16 + (k - 6 - 5 - 5) = k by omega]; omega
          · split
            · simp [show 21 + (k - 6 - 5 - 5 - 5) = k by omega]; omega
            · omega
  · rw [getLsbD_of_opcode w 0#6 h k h26 hk, if_neg (by omega), if_neg (by omega), if_neg (by omega),
      if_neg (by omega), if_neg (by omega)]
    simp

theorem encodeI_fields (w : Word) (op : BitVec 6) (h : opcodeField w = op) :
    encodeI op (rsField w) (rtField w) (immField w) = w := by
  refine BitVec.eq_of_getLsbD_eq fun k hk => ?_
  simp only [encodeI, rsField, rtField, immField, regBits_toFin, BitVec.getLsbD_append, BitVec.getLsbD_extractLsb']
  rcases Nat.lt_or_ge k 26 with h26 | h26
  · split
    · simp; omega
    · split
      · simp [show 16 + (k - 16) = k by omega]; omega
      · split
        · simp [show 21 + (k - 16 - 5) = k by omega]; omega
        · omega
  · rw [getLsbD_of_opcode w op h k h26 hk, if_neg (by omega), if_neg (by omega), if_neg (by omega)]
    congr 1

theorem encodeJ_fields (w : Word) (op : BitVec 6) (h : opcodeField w = op) : encodeJ op (targetField w) = w := by
  refine BitVec.eq_of_getLsbD_eq fun k hk => ?_
  simp only [encodeJ, targetField, BitVec.getLsbD_append, BitVec.getLsbD_extractLsb']
  rcases Nat.lt_or_ge k 26 with h26 | h26
  · rw [if_pos h26]; simp; omega
  · rw [getLsbD_of_opcode w op h k h26 hk, if_neg (by omega)]

/-! ### Words that match a row's mask (R62, R63) -/

/-- A word that matches under mask 0xFC000000 has the opcode of the match value. -/
theorem opcode_of_mask (w m : Word) (h : w &&& 0xFC000000#32 = m) : opcodeField w = opcodeField m := by
  subst h
  refine BitVec.eq_of_getLsbD_eq fun k hk => ?_
  have : (0xFC000000#32 : Word).getLsbD (26 + k) = true := by
    have : k = 0 ∨ k = 1 ∨ k = 2 ∨ k = 3 ∨ k = 4 ∨ k = 5 := by omega
    rcases this with rfl | rfl | rfl | rfl | rfl | rfl <;> rfl
  simp [opcodeField, this]

/-- A word that matches under mask 0xFC00003F has the opcode and the funct of the match value. -/
theorem opcode_funct_of_mask (w m : Word) (h : w &&& 0xFC00003F#32 = m) :
    opcodeField w = opcodeField m ∧ functField w = functField m := by
  subst h
  constructor <;> refine BitVec.eq_of_getLsbD_eq fun k hk => ?_
  · have : (0xFC00003F#32 : Word).getLsbD (26 + k) = true := by
      have : k = 0 ∨ k = 1 ∨ k = 2 ∨ k = 3 ∨ k = 4 ∨ k = 5 := by omega
      rcases this with rfl | rfl | rfl | rfl | rfl | rfl <;> rfl
    simp [opcodeField, this]
  · have : (0xFC00003F#32 : Word).getLsbD k = true := by
      have : k = 0 ∨ k = 1 ∨ k = 2 ∨ k = 3 ∨ k = 4 ∨ k = 5 := by omega
      rcases this with rfl | rfl | rfl | rfl | rfl | rfl <;> rfl
    simp [functField, this]

/-! ### What the decoder answers, by opcode and funct -/

theorem ne_zero_of_opcode (w : Word) (h : opcodeField w ≠ 0#6) : w ≠ 0#32 := by
  rintro rfl; exact h (by decide)

theorem ne_zero_of_funct (w : Word) (h : functField w ≠ 0#6) : w ≠ 0#32 := by
  rintro rfl; exact h (by decide)

theorem decode_zero : decode 0#32 = .ok .sentinel := by simp [decode]

/-- Opcode 0 and not the sentinel: the funct decides (R64). -/
theorem decode_of_opcode_zero (w : Word) (hw : w ≠ 0#32) (h : opcodeField w = 0#6) : decode w = decodeR w := by
  simp [decode, hw, h]

/-- A row under mask 0xFC00003F whose funct is not 0: the decoder's funct map answers (R63). -/
theorem decode_of_R_mask (w m : Word) (h : w &&& 0xFC00003F#32 = m) (hop : opcodeField m = 0#6)
    (hf : functField m ≠ 0#6) : decode w = decodeR w ∧ functField w = functField m := by
  obtain ⟨ho, hfw⟩ := opcode_funct_of_mask w m h
  exact ⟨decode_of_opcode_zero w (ne_zero_of_funct w (hfw ▸ hf)) (ho.trans hop), hfw⟩

/-- A row under mask 0xFC000000: not the sentinel, and the opcode of the row (R62). -/
theorem opcode_of_I_mask (w m : Word) (h : w &&& 0xFC000000#32 = m) (hop : opcodeField m ≠ 0#6) :
    w ≠ 0#32 ∧ opcodeField w = opcodeField m := by
  have ho := opcode_of_mask w m h
  exact ⟨ne_zero_of_opcode w (ho ▸ hop), ho⟩

end Sys2Proof
end

