-- ==== Sys2Proof/Laws/Memory.lean ====
section
/-!
SUPPORT. The laws of memory: reading after writing, and that every operation keeps the canonical form.
-/

namespace Sys2Proof.Machine

open Memory

/-! ### Bytes -/

@[simp] theorem Memory.readByte_nil (a : Nat) : Memory.readByte [] a = unlistedByte := rfl

theorem Memory.readByte_cons (c : Host.Cell) (m : Memory) (a : Nat) :
    Memory.readByte (c :: m) a = if c.1 = a then c.2 else Memory.readByte m a := rfl

/-- Below every listed address a memory reads as unlisted. -/
theorem Memory.readByte_below (m : Memory) (a : Nat) (h : ∀ c ∈ m, a < c.1) : m.readByte a = unlistedByte := by
  induction m with
  | nil => rfl
  | cons c m ih =>
    have hc := h c (by simp)
    rw [Memory.readByte_cons, if_neg (by omega), ih fun d hd => h d (by simp [hd])]

theorem Memory.wf_cons (c : Host.Cell) (m : Memory) :
    Memory.wf (c :: m) ↔ (∀ d ∈ m, c.1 < d.1) ∧ c.2 ≠ unlistedByte ∧ m.wf := by
  simp only [Memory.wf, List.pairwise_cons, List.mem_cons, forall_eq_or_imp]
  tauto

@[simp] theorem Memory.wf_nil : Memory.wf [] := by simp [Memory.wf]

/-- A cell put before higher addresses gives a canonical memory. -/
theorem Memory.consCell_wf (a : Nat) (v : Byte) (m : Memory) (hm : m.wf) (ha : ∀ c ∈ m, a < c.1) :
    (consCell a v m).wf := by
  unfold consCell
  split
  · exact hm
  · rename_i hv
    exact (Memory.wf_cons _ _).2 ⟨ha, hv, hm⟩

theorem Memory.readByte_consCell (a : Nat) (v : Byte) (m : Memory) (ha : ∀ c ∈ m, a < c.1) (b : Nat) :
    (consCell a v m).readByte b = if b = a then v else m.readByte b := by
  unfold consCell
  split
  · rename_i hv
    split
    · rename_i hb
      rw [hb, Memory.readByte_below m a ha, hv]
    · rfl
  · rw [Memory.readByte_cons]
    by_cases hb : b = a
    · simp [hb]
    · rw [if_neg hb, if_neg fun h => hb h.symm]

/-- A written memory lists only the written address and what was listed. -/
theorem Memory.mem_writeByte (m : Memory) (a : Nat) (v : Byte) (c : Host.Cell) (h : c ∈ m.writeByte a v) :
    c.1 = a ∨ c ∈ m := by
  induction m with
  | nil =>
    unfold writeByte consCell at h
    split at h <;> simp_all
  | cons d m ih =>
    unfold writeByte at h
    split at h
    · unfold consCell at h
      split at h
      · exact .inr h
      · rcases List.mem_cons.1 h with rfl | h
        · exact .inl rfl
        · exact .inr h
    · split at h
      · unfold consCell at h
        split at h
        · exact .inr (List.mem_cons_of_mem _ h)
        · rcases List.mem_cons.1 h with rfl | h
          · exact .inl rfl
          · exact .inr (List.mem_cons_of_mem _ h)
      · rcases List.mem_cons.1 h with rfl | h
        · exact .inr (by simp)
        · exact (ih h).imp_right (List.mem_cons_of_mem _)

/-- Writing a byte keeps the canonical form. -/
theorem Memory.writeByte_wf (m : Memory) (a : Nat) (v : Byte) (hm : m.wf) : (m.writeByte a v).wf := by
  induction m with
  | nil => exact Memory.consCell_wf a v [] hm (by simp)
  | cons d m ih =>
    have ⟨hd, hv, hw⟩ := (Memory.wf_cons _ _).1 hm
    unfold writeByte
    split
    · rename_i h
      refine Memory.consCell_wf a v _ hm fun c hc => ?_
      rcases List.mem_cons.1 hc with rfl | hc
      · exact h
      · exact lt_trans h (hd c hc)
    · split
      · rename_i h
        exact Memory.consCell_wf a v m hw (h ▸ hd)
      · refine (Memory.wf_cons _ _).2 ⟨fun c hc => ?_, hv, ih hw⟩
        rcases Memory.mem_writeByte m a v c hc with h | h
        · omega
        · exact hd c h

/-- A read after a write of one byte: the written byte there, the old byte elsewhere. -/
theorem Memory.readByte_writeByte (m : Memory) (hm : m.wf) (a : Nat) (v : Byte) (b : Nat) :
    (m.writeByte a v).readByte b = if b = a then v else m.readByte b := by
  induction m with
  | nil => exact Memory.readByte_consCell a v [] (by simp) b
  | cons d m ih =>
    have ⟨hd, _, hw⟩ := (Memory.wf_cons _ _).1 hm
    unfold writeByte
    split
    · rename_i h
      refine Memory.readByte_consCell a v _ (fun c hc => ?_) b
      rcases List.mem_cons.1 hc with rfl | hc
      · exact h
      · exact lt_trans h (hd c hc)
    · split
      · rename_i h
        rw [Memory.readByte_consCell a v m (h ▸ hd) b, Memory.readByte_cons]
        by_cases hb : b = a
        · simp [hb]
        · rw [if_neg hb, if_neg hb, if_neg (by omega)]
      · rename_i h1 h2
        rw [Memory.readByte_cons, ih hw, Memory.readByte_cons]
        by_cases hb : b = a
        · rw [if_pos hb, if_pos hb, if_neg (by omega)]
        · simp [hb]

/-- Two canonical memories that read alike are the same list. -/
theorem Memory.ext_of_wf (m n : Memory) (hm : m.wf) (hn : n.wf) (h : ∀ a, m.readByte a = n.readByte a) : m = n := by
  induction m generalizing n with
  | nil =>
    cases n with
    | nil => rfl
    | cons d n =>
      have ⟨_, hv, _⟩ := (Memory.wf_cons _ _).1 hn
      have := h d.1
      simp [Memory.readByte_cons] at this
      exact absurd this.symm hv
  | cons c m ih =>
    have ⟨hc, hcv, hcw⟩ := (Memory.wf_cons _ _).1 hm
    cases n with
    | nil =>
      have := h c.1
      simp [Memory.readByte_cons] at this
      exact absurd this hcv
    | cons d n =>
      have ⟨hd, hdv, hdw⟩ := (Memory.wf_cons _ _).1 hn
      have hcd : c.1 = d.1 := by
        rcases lt_trichotomy c.1 d.1 with hlt | heq | hgt
        · have := h c.1
          rw [Memory.readByte_cons, if_pos rfl, Memory.readByte_below (d :: n) c.1 (by
            intro e he
            rcases List.mem_cons.1 he with rfl | he
            · exact hlt
            · exact lt_trans hlt (hd e he))] at this
          exact absurd this hcv
        · exact heq
        · have := h d.1
          rw [Memory.readByte_cons (c := d), if_pos rfl, Memory.readByte_below (c :: m) d.1 (by
            intro e he
            rcases List.mem_cons.1 he with rfl | he
            · exact hgt
            · exact lt_trans hgt (hc e he))] at this
          exact absurd this.symm hdv
      have hval : c.2 = d.2 := by
        have := h c.1
        rwa [Memory.readByte_cons, if_pos rfl, Memory.readByte_cons, if_pos hcd.symm] at this
      have hcell : c = d := Prod.ext hcd hval
      subst hcell
      congr 1
      refine ih n hcw hdw fun a => ?_
      by_cases ha : c.1 = a
      · subst ha
        rw [Memory.readByte_below m _ hc, Memory.readByte_below n _ hd]
      · have := h a
        rwa [Memory.readByte_cons, if_neg ha, Memory.readByte_cons, if_neg ha] at this

/-! ### Words -/

/-- A word is its four bytes put together again. -/
theorem wordOfBytes_bytes (v : Word) :
    wordOfBytes (v.extractLsb' 24 8) (v.extractLsb' 16 8) (v.extractLsb' 8 8) (v.extractLsb' 0 8) = v := by
  unfold wordOfBytes
  ext i hi
  simp only [BitVec.getElem_append, BitVec.getElem_extractLsb']
  split
  · rename_i h; simp [BitVec.getLsbD_eq_getElem hi]
  · split
    · rename_i h1 h2; rw [← BitVec.getLsbD_eq_getElem hi]; congr 1; omega
    · split
      · rename_i h1 h2 h3; rw [← BitVec.getLsbD_eq_getElem hi]; congr 1; omega
      · rename_i h1 h2 h3; rw [← BitVec.getLsbD_eq_getElem hi]; congr 1; omega

/-- An empty memory reads as zero everywhere. -/
@[simp] theorem Memory.readWord_nil (a : Nat) : Memory.readWord [] a = 0#32 := by
  simp only [readWord, readByte_nil]
  decide

/-- Writing a word keeps the canonical form. -/
theorem Memory.writeWord_wf (m : Memory) (a : Nat) (v : Word) (hm : m.wf) : (m.writeWord a v).wf :=
  writeByte_wf _ _ _ (writeByte_wf _ _ _ (writeByte_wf _ _ _ (writeByte_wf _ _ _ hm)))

/-- A written memory lists only the four addresses of the word and what was listed. -/
theorem Memory.mem_writeWord (m : Memory) (a : Nat) (v : Word) (c : Host.Cell) (h : c ∈ m.writeWord a v) :
    (a ≤ c.1 ∧ c.1 < a + 4) ∨ c ∈ m := by
  unfold writeWord at h
  rcases mem_writeByte _ _ _ _ h with h | h
  · omega
  rcases mem_writeByte _ _ _ _ h with h | h
  · omega
  rcases mem_writeByte _ _ _ _ h with h | h
  · omega
  rcases mem_writeByte _ _ _ _ h with h | h
  · omega
  · exact .inr h

/-- The bytes outside a written word read as before. -/
theorem Memory.readByte_writeWord_of_ne (m : Memory) (hm : m.wf) (a : Nat) (v : Word) (b : Nat)
    (h : b < a ∨ a + 4 ≤ b) : (m.writeWord a v).readByte b = m.readByte b := by
  have h0 := writeByte_wf m a (v.extractLsb' 24 8) hm
  have h1 := writeByte_wf _ (a + 1) (v.extractLsb' 16 8) h0
  have h2 := writeByte_wf _ (a + 2) (v.extractLsb' 8 8) h1
  unfold writeWord
  rw [readByte_writeByte _ h2, if_neg (by omega), readByte_writeByte _ h1, if_neg (by omega),
    readByte_writeByte _ h0, if_neg (by omega), readByte_writeByte _ hm, if_neg (by omega)]

/-- A word read back where it was written is the word. -/
theorem Memory.readWord_writeWord_same (m : Memory) (hm : m.wf) (a : Nat) (v : Word) :
    (m.writeWord a v).readWord a = v := by
  have h0 := writeByte_wf m a (v.extractLsb' 24 8) hm
  have h1 := writeByte_wf _ (a + 1) (v.extractLsb' 16 8) h0
  have h2 := writeByte_wf _ (a + 2) (v.extractLsb' 8 8) h1
  unfold readWord writeWord
  simp only [readByte_writeByte _ h2, readByte_writeByte _ h1, readByte_writeByte _ h0, readByte_writeByte _ hm]
  simpa using wordOfBytes_bytes v

/-- A word that does not overlap a written one reads as before. -/
theorem Memory.readWord_writeWord_of_disjoint (m : Memory) (hm : m.wf) (a : Nat) (v : Word) (b : Nat)
    (h : b + 4 ≤ a ∨ a + 4 ≤ b) : (m.writeWord a v).readWord b = m.readWord b := by
  unfold readWord
  rw [readByte_writeWord_of_ne m hm a v b (by omega), readByte_writeWord_of_ne m hm a v (b + 1) (by omega),
    readByte_writeWord_of_ne m hm a v (b + 2) (by omega), readByte_writeWord_of_ne m hm a v (b + 3) (by omega)]

end Sys2Proof.Machine
end

