-- ==== Sys2Proof/Laws/Loader.lean ====
section
/-!
SUPPORT. The loader: how many words an image has, which they are, and what loading them does to memory.
-/

namespace Sys2Proof.Machine

/-- An image has a quarter as many words as bytes. -/
theorem imageWords_length : ∀ image : List Byte, (imageWords image).length = image.length / 4
  | b0 :: b1 :: b2 :: b3 :: rest => by
    simp only [imageWords, List.length_cons, imageWords_length rest]
    omega
  | [] | [_] | [_, _] | [_, _, _] => by simp [imageWords]

/-- Word k of an image is its bytes 4k to 4k + 3, the first highest (70_reset_and_hazards.md R140). -/
theorem imageWords_getD : ∀ (image : List Byte) (k : Nat), k < image.length / 4 → (imageWords image).getD k 0 =
    image.getD (4 * k) 0 ++ image.getD (4 * k + 1) 0 ++ image.getD (4 * k + 2) 0 ++ image.getD (4 * k + 3) 0
  | b0 :: b1 :: b2 :: b3 :: rest, k => by
    intro h
    cases k with
    | zero => rfl
    | succ k =>
      simp only [List.length_cons] at h
      have := imageWords_getD rest k (by omega)
      simp only [imageWords, List.getD_cons_succ, this, show 4 * (k + 1) = 4 * k + 1 + 1 + 1 + 1 by omega]
  | [], k | [_], k | [_, _], k | [_, _, _], k => by intro h; simp at h

/-- Loading words: canonical, each word where it belongs, every other word as before, nothing listed elsewhere. -/
theorem loadWords_spec (ws : List Word) : ∀ (a : Nat) (m : Memory), m.wf → (loadWords a ws m).wf ∧
    (∀ b, (b + 4 ≤ a ∨ a + 4 * ws.length ≤ b) → (loadWords a ws m).readWord b = m.readWord b) ∧
    (∀ k < ws.length, (loadWords a ws m).readWord (a + 4 * k) = ws.getD k 0) ∧
    (∀ c ∈ loadWords a ws m, (a ≤ c.1 ∧ c.1 < a + 4 * ws.length) ∨ c ∈ m) := by
  induction ws with
  | nil => exact fun a m hm => ⟨hm, fun _ _ => rfl, by simp, fun c hc => .inr hc⟩
  | cons w ws ih =>
    intro a m hm
    obtain ⟨h1, h2, h3, h4⟩ := ih (a + 4) (m.writeWord a w) (Memory.writeWord_wf m a w hm)
    simp only [List.length_cons, loadWords]
    refine ⟨h1, fun b hb => ?_, fun k hk => ?_, fun c hc => ?_⟩
    · rw [h2 b (by omega), Memory.readWord_writeWord_of_disjoint m hm a w b (by omega)]
    · cases k with
      | zero => rw [h2 _ (by omega)]; simp [Memory.readWord_writeWord_same m hm]
      | succ k => rw [show a + 4 * (k + 1) = a + 4 + 4 * k by omega, h3 k (by omega)]; rfl
    · rcases h4 c hc with h | h
      · left; omega
      · rcases Memory.mem_writeWord _ _ _ _ h with h | h
        · left; omega
        · exact .inr h

/-- What a boot that starts a machine has checked and done. -/
theorem boot_started {cfg : Config} {flags : HostFlags} {lines : List HostLine} {image : List Byte} {s : State}
    (h : boot cfg flags lines image = .started s) : image.length % 4 = 0 ∧ image.length / 4 ≤ cfg.numInstr ∧
      s = State.resetOf cfg flags lines (loadWords cfg.instrBase.toNat (imageWords image) []) := by
  unfold boot at h
  split at h
  · cases h
  · split at h
    · cases h
    · rename_i h1 h2
      rw [imageWords_length] at h2
      cases h
      exact ⟨by omega, by omega, rfl⟩

end Sys2Proof.Machine
end

