-- ==== Sys2Proof/Laws/Operands.lean ====
section
/-!
SUPPORT. The operand forms in the terms of the bit-vector library.
-/

namespace Sys2Proof.Machine

/-- sext_32 is the library's sign extension. -/
theorem signExtend32_eq (imm : BitVec 16) : signExtend32 imm = imm.signExtend 32 := by
  refine BitVec.eq_of_getLsbD_eq fun k hk => ?_
  have hi : ∀ k, k < 32 → (0xffff0000#32 : Word).getLsbD k = decide (16 ≤ k) := by decide
  have hm : imm.msb = imm.getLsbD 15 := by simp [BitVec.msb_eq_getLsbD_last]
  rw [BitVec.getLsbD_signExtend, hm]
  unfold signExtend32
  by_cases h15 : imm.getLsbD 15 = true
  · rw [if_pos h15, BitVec.getLsbD_or, hi k hk, BitVec.getLsbD_setWidth, h15]
    by_cases h : k < 16
    · simp [h, hk, show ¬ 16 ≤ k by omega]
    · simp [h, hk, show 16 ≤ k by omega]
  · simp only [Bool.not_eq_true] at h15
    rw [h15, if_neg (by simp), BitVec.getLsbD_setWidth]
    by_cases h : k < 16
    · simp [h, hk]
    · simp [h, hk, BitVec.getLsbD_of_ge imm k (by omega)]

/-- lui's operand: the field in the upper half, zeros below. -/
theorem upperImmediate_eq (imm : BitVec 16) : upperImmediate imm = imm ++ 0#16 := by
  refine BitVec.eq_of_getLsbD_eq fun k hk => ?_
  unfold upperImmediate
  rw [signExtend32_eq, BitVec.getLsbD_shiftLeft, BitVec.getLsbD_append, BitVec.getLsbD_signExtend]
  rcases Nat.lt_or_ge k 16 with h | h
  · simp [h]
  · simp [hk, Nat.not_lt.2 h, show k - 16 < 16 by omega, show k - 16 < 32 by omega]

/-- The J target is the pc's segment, the field, two zeros. -/
theorem jumpTarget_eq (pc : Word) (tgt : BitVec 26) :
    jumpTarget pc tgt = pc.extractLsb' 28 4 ++ tgt ++ 0#2 := by
  refine BitVec.eq_of_getLsbD_eq fun k hk => ?_
  have hi : ∀ k, k < 32 → (0xF0000000#32 : Word).getLsbD k = decide (28 ≤ k) := by decide
  unfold jumpTarget
  simp only [BitVec.getLsbD_or, BitVec.getLsbD_and, hi k hk, BitVec.getLsbD_append, BitVec.getLsbD_shiftLeft,
    BitVec.getLsbD_setWidth, BitVec.getLsbD_extractLsb']
  rcases Nat.lt_or_ge k 2 with h | h
  · simp [h, show ¬ 28 ≤ k by omega]
  · rcases Nat.lt_or_ge k 28 with h' | h'
    · simp [hk, Nat.not_lt.2 h, show ¬ 28 ≤ k by omega, show k - 2 < 26 by omega, show k - 2 < 32 by omega]
    · simp [hk, Nat.not_lt.2 h, h', show ¬ k - 2 < 26 by omega, show k - 2 - 26 < 4 by omega,
        show 28 + (k - 2 - 26) = k by omega, BitVec.getLsbD_of_ge tgt (k - 2) (by omega)]

/-- The sign bit of a word is whether it reads 2^31 or more. -/
theorem getLsbD_31_eq (w : Word) : w.getLsbD 31 = decide (2 ^ 31 ≤ w.toNat) := by
  rw [show w.getLsbD 31 = w.msb by simp [BitVec.msb_eq_getLsbD_last], BitVec.msb_eq_decide]

/-- The branch condition is equality. -/
theorem patternsEqual_iff (vs vt : Word) : patternsEqual vs vt = true ↔ vs = vt := by simp [patternsEqual]

end Sys2Proof.Machine
end

