-- ==== Sys2Proof/Laws/State.lean ====
section
/-!
SUPPORT. One lemma per field per update of State, so that no later proof unfolds a record update.
-/

namespace Sys2Proof.Machine

variable (s : State)

/-! ### setPc -/

@[simp] theorem State.setPc_regs (pc : Word) : (s.setPc pc).regs = s.regs := rfl
@[simp] theorem State.setPc_pc (pc : Word) : (s.setPc pc).pc = pc := rfl
@[simp] theorem State.setPc_mem (pc : Word) : (s.setPc pc).mem = s.mem := rfl
@[simp] theorem State.setPc_run (pc : Word) : (s.setPc pc).run = s.run := rfl
@[simp] theorem State.setPc_cause (pc : Word) : (s.setPc pc).cause = s.cause := rfl
@[simp] theorem State.setPc_cfg (pc : Word) : (s.setPc pc).cfg = s.cfg := rfl
@[simp] theorem State.setPc_flags (pc : Word) : (s.setPc pc).flags = s.flags := rfl
@[simp] theorem State.setPc_hostLines (pc : Word) : (s.setPc pc).hostLines = s.hostLines := rfl
@[simp] theorem State.setPc_hostReads (pc : Word) : (s.setPc pc).hostReads = s.hostReads := rfl
@[simp] theorem State.setPc_events (pc : Word) : (s.setPc pc).events = s.events := rfl

/-! ### storeWord -/

@[simp] theorem State.storeWord_regs (ea v : Word) : (s.storeWord ea v).regs = s.regs := rfl
@[simp] theorem State.storeWord_pc (ea v : Word) : (s.storeWord ea v).pc = s.pc := rfl
@[simp] theorem State.storeWord_mem (ea v : Word) : (s.storeWord ea v).mem = s.mem.writeWord ea.toNat v := rfl
@[simp] theorem State.storeWord_run (ea v : Word) : (s.storeWord ea v).run = s.run := rfl
@[simp] theorem State.storeWord_cause (ea v : Word) : (s.storeWord ea v).cause = s.cause := rfl
@[simp] theorem State.storeWord_cfg (ea v : Word) : (s.storeWord ea v).cfg = s.cfg := rfl
@[simp] theorem State.storeWord_flags (ea v : Word) : (s.storeWord ea v).flags = s.flags := rfl
@[simp] theorem State.storeWord_hostLines (ea v : Word) : (s.storeWord ea v).hostLines = s.hostLines := rfl
@[simp] theorem State.storeWord_hostReads (ea v : Word) : (s.storeWord ea v).hostReads = s.hostReads := rfl
@[simp] theorem State.storeWord_events (ea v : Word) : (s.storeWord ea v).events = s.events := rfl

/-! ### emit -/

@[simp] theorem State.emit_regs (es : List Event) : (s.emit es).regs = s.regs := rfl
@[simp] theorem State.emit_pc (es : List Event) : (s.emit es).pc = s.pc := rfl
@[simp] theorem State.emit_mem (es : List Event) : (s.emit es).mem = s.mem := rfl
@[simp] theorem State.emit_run (es : List Event) : (s.emit es).run = s.run := rfl
@[simp] theorem State.emit_cause (es : List Event) : (s.emit es).cause = s.cause := rfl
@[simp] theorem State.emit_cfg (es : List Event) : (s.emit es).cfg = s.cfg := rfl
@[simp] theorem State.emit_flags (es : List Event) : (s.emit es).flags = s.flags := rfl
@[simp] theorem State.emit_hostLines (es : List Event) : (s.emit es).hostLines = s.hostLines := rfl
@[simp] theorem State.emit_hostReads (es : List Event) : (s.emit es).hostReads = s.hostReads := rfl
@[simp] theorem State.emit_events (es : List Event) : (s.emit es).events = s.events ++ es := rfl

/-! ### terminate -/

@[simp] theorem State.terminate_regs (c : Cause) : (s.terminate c).regs = s.regs := rfl
@[simp] theorem State.terminate_pc (c : Cause) : (s.terminate c).pc = s.pc := rfl
@[simp] theorem State.terminate_mem (c : Cause) : (s.terminate c).mem = s.mem := rfl
@[simp] theorem State.terminate_run (c : Cause) : (s.terminate c).run = .terminated := rfl
@[simp] theorem State.terminate_cause (c : Cause) : (s.terminate c).cause = some c := rfl
@[simp] theorem State.terminate_cfg (c : Cause) : (s.terminate c).cfg = s.cfg := rfl
@[simp] theorem State.terminate_flags (c : Cause) : (s.terminate c).flags = s.flags := rfl
@[simp] theorem State.terminate_hostLines (c : Cause) : (s.terminate c).hostLines = s.hostLines := rfl
@[simp] theorem State.terminate_hostReads (c : Cause) : (s.terminate c).hostReads = s.hostReads := rfl
@[simp] theorem State.terminate_events (c : Cause) : (s.terminate c).events = s.events ++ c.diagnostics := rfl

/-! ### takeLine -/

@[simp] theorem State.takeLine_regs : (s.takeLine).regs = s.regs := rfl
@[simp] theorem State.takeLine_pc : (s.takeLine).pc = s.pc := rfl
@[simp] theorem State.takeLine_mem : (s.takeLine).mem = s.mem := rfl
@[simp] theorem State.takeLine_run : (s.takeLine).run = s.run := rfl
@[simp] theorem State.takeLine_cause : (s.takeLine).cause = s.cause := rfl
@[simp] theorem State.takeLine_cfg : (s.takeLine).cfg = s.cfg := rfl
@[simp] theorem State.takeLine_flags : (s.takeLine).flags = s.flags := rfl
@[simp] theorem State.takeLine_hostLines : (s.takeLine).hostLines = s.hostLines.tail := rfl
@[simp] theorem State.takeLine_hostReads : (s.takeLine).hostReads = s.hostReads + 1 := rfl
@[simp] theorem State.takeLine_events : (s.takeLine).events = s.events := rfl

/-! ### writeReg -/

@[simp] theorem State.writeReg_pc (i : RegIndex) (v : Word) : (s.writeReg i v).pc = s.pc := by
  unfold State.writeReg; split <;> rfl
@[simp] theorem State.writeReg_mem (i : RegIndex) (v : Word) : (s.writeReg i v).mem = s.mem := by
  unfold State.writeReg; split <;> rfl
@[simp] theorem State.writeReg_run (i : RegIndex) (v : Word) : (s.writeReg i v).run = s.run := by
  unfold State.writeReg; split <;> rfl
@[simp] theorem State.writeReg_cause (i : RegIndex) (v : Word) : (s.writeReg i v).cause = s.cause := by
  unfold State.writeReg; split <;> rfl
@[simp] theorem State.writeReg_cfg (i : RegIndex) (v : Word) : (s.writeReg i v).cfg = s.cfg := by
  unfold State.writeReg; split <;> rfl
@[simp] theorem State.writeReg_flags (i : RegIndex) (v : Word) : (s.writeReg i v).flags = s.flags := by
  unfold State.writeReg; split <;> rfl
@[simp] theorem State.writeReg_hostLines (i : RegIndex) (v : Word) : (s.writeReg i v).hostLines = s.hostLines := by
  unfold State.writeReg; split <;> rfl
@[simp] theorem State.writeReg_hostReads (i : RegIndex) (v : Word) : (s.writeReg i v).hostReads = s.hostReads := by
  unfold State.writeReg; split <;> rfl
@[simp] theorem State.writeReg_events (i : RegIndex) (v : Word) : (s.writeReg i v).events = s.events := by
  unfold State.writeReg; split <;> rfl

@[simp] theorem State.writeReg_zero (v : Word) : s.writeReg 0 v = s := by simp [State.writeReg]

theorem State.writeReg_regs (i : RegIndex) (v : Word) (h : i ≠ 0) : (s.writeReg i v).regs = s.regs.set i v := by
  simp [State.writeReg, h]

/-! ### writeBack and storeBack -/

@[simp] theorem State.writeBack_none : s.writeBack none = s := rfl
@[simp] theorem State.writeBack_some (i : RegIndex) (v : Word) : s.writeBack (some (i, v)) = s.writeReg i v := rfl
@[simp] theorem State.storeBack_none : s.storeBack none = s := rfl
@[simp] theorem State.storeBack_some (ea v : Word) : s.storeBack (some (ea, v)) = s.storeWord ea v := rfl

@[simp] theorem State.writeBack_pc (w : Option (RegIndex × Word)) : (s.writeBack w).pc = s.pc := by
  rcases w with - | ⟨i, v⟩ <;> simp
@[simp] theorem State.writeBack_mem (w : Option (RegIndex × Word)) : (s.writeBack w).mem = s.mem := by
  rcases w with - | ⟨i, v⟩ <;> simp
@[simp] theorem State.writeBack_run (w : Option (RegIndex × Word)) : (s.writeBack w).run = s.run := by
  rcases w with - | ⟨i, v⟩ <;> simp
@[simp] theorem State.writeBack_cause (w : Option (RegIndex × Word)) : (s.writeBack w).cause = s.cause := by
  rcases w with - | ⟨i, v⟩ <;> simp
@[simp] theorem State.writeBack_cfg (w : Option (RegIndex × Word)) : (s.writeBack w).cfg = s.cfg := by
  rcases w with - | ⟨i, v⟩ <;> simp
@[simp] theorem State.writeBack_flags (w : Option (RegIndex × Word)) : (s.writeBack w).flags = s.flags := by
  rcases w with - | ⟨i, v⟩ <;> simp
@[simp] theorem State.writeBack_hostLines (w : Option (RegIndex × Word)) : (s.writeBack w).hostLines = s.hostLines := by
  rcases w with - | ⟨i, v⟩ <;> simp
@[simp] theorem State.writeBack_hostReads (w : Option (RegIndex × Word)) : (s.writeBack w).hostReads = s.hostReads := by
  rcases w with - | ⟨i, v⟩ <;> simp
@[simp] theorem State.writeBack_events (w : Option (RegIndex × Word)) : (s.writeBack w).events = s.events := by
  rcases w with - | ⟨i, v⟩ <;> simp
@[simp] theorem State.storeBack_regs (w : Option (Word × Word)) : (s.storeBack w).regs = s.regs := by
  rcases w with - | ⟨ea, v⟩ <;> rfl
@[simp] theorem State.storeBack_pc (w : Option (Word × Word)) : (s.storeBack w).pc = s.pc := by
  rcases w with - | ⟨ea, v⟩ <;> rfl
@[simp] theorem State.storeBack_run (w : Option (Word × Word)) : (s.storeBack w).run = s.run := by
  rcases w with - | ⟨ea, v⟩ <;> rfl
@[simp] theorem State.storeBack_cause (w : Option (Word × Word)) : (s.storeBack w).cause = s.cause := by
  rcases w with - | ⟨ea, v⟩ <;> rfl
@[simp] theorem State.storeBack_cfg (w : Option (Word × Word)) : (s.storeBack w).cfg = s.cfg := by
  rcases w with - | ⟨ea, v⟩ <;> rfl
@[simp] theorem State.storeBack_flags (w : Option (Word × Word)) : (s.storeBack w).flags = s.flags := by
  rcases w with - | ⟨ea, v⟩ <;> rfl
@[simp] theorem State.storeBack_hostLines (w : Option (Word × Word)) : (s.storeBack w).hostLines = s.hostLines := by
  rcases w with - | ⟨ea, v⟩ <;> rfl
@[simp] theorem State.storeBack_hostReads (w : Option (Word × Word)) : (s.storeBack w).hostReads = s.hostReads := by
  rcases w with - | ⟨ea, v⟩ <;> rfl
@[simp] theorem State.storeBack_events (w : Option (Word × Word)) : (s.storeBack w).events = s.events := by
  rcases w with - | ⟨ea, v⟩ <;> rfl

/-! ### commit -/

section
variable (regW : Option (RegIndex × Word)) (memW : Option (Word × Word)) (npc : Word)

@[simp] theorem State.commit_regs : (s.commit regW memW npc).regs = (s.writeBack regW).regs := by
  simp [State.commit]
@[simp] theorem State.commit_pc : (s.commit regW memW npc).pc = npc := by
  simp [State.commit]
@[simp] theorem State.commit_mem : (s.commit regW memW npc).mem = (s.storeBack memW).mem := by
  rcases memW with - | ⟨ea, v⟩ <;> simp [State.commit]
@[simp] theorem State.commit_run : (s.commit regW memW npc).run = s.run := by
  simp [State.commit]
@[simp] theorem State.commit_cause : (s.commit regW memW npc).cause = s.cause := by
  simp [State.commit]
@[simp] theorem State.commit_cfg : (s.commit regW memW npc).cfg = s.cfg := by
  simp [State.commit]
@[simp] theorem State.commit_flags : (s.commit regW memW npc).flags = s.flags := by
  simp [State.commit]
@[simp] theorem State.commit_hostLines : (s.commit regW memW npc).hostLines = s.hostLines := by
  simp [State.commit]
@[simp] theorem State.commit_hostReads : (s.commit regW memW npc).hostReads = s.hostReads := by
  simp [State.commit]
@[simp] theorem State.commit_events : (s.commit regW memW npc).events =
    s.events ++ [.report { fetchAddr := s.pc, word := s.fetchedWord, newPc := npc, regChanged := regW, memChanged := memW }] := by
  simp [State.commit]

end

/-! ### readReg -/

@[simp] theorem State.readReg_zero : s.readReg 0 = 0#32 := rfl

theorem State.readReg_congr {s t : State} (h : t.regs = s.regs) (r : RegIndex) : t.readReg r = s.readReg r := by
  simp [State.readReg, h]

theorem State.readReg_writeReg (i : RegIndex) (v : Word) (r : RegIndex) :
    (s.writeReg i v).readReg r = if r = i then (if i = 0 then 0#32 else v) else s.readReg r := by
  by_cases hi : i = 0
  · subst hi; by_cases hr : r = 0 <;> simp [hr]
  · by_cases hr : r = i
    · subst hr; simp [State.readReg, State.writeReg, hi]
    · have hne : (i : ℕ) ≠ (r : ℕ) := fun h => hr (Fin.ext h.symm)
      simp [State.readReg, State.writeReg, hi, hr, Vector.getElem_set_ne, hne]

@[simp] theorem State.readReg_writeReg_same (i : RegIndex) (v : Word) :
    (s.writeReg i v).readReg i = if i = 0 then 0#32 else v := by simp [State.readReg_writeReg]

@[simp] theorem State.readReg_setPc (pc : Word) (r : RegIndex) : (s.setPc pc).readReg r = s.readReg r := rfl
@[simp] theorem State.readReg_storeWord (ea v : Word) (r : RegIndex) : (s.storeWord ea v).readReg r = s.readReg r := rfl
@[simp] theorem State.readReg_emit (es : List Event) (r : RegIndex) : (s.emit es).readReg r = s.readReg r := rfl
@[simp] theorem State.readReg_terminate (c : Cause) (r : RegIndex) : (s.terminate c).readReg r = s.readReg r := rfl
@[simp] theorem State.readReg_takeLine (r : RegIndex) : s.takeLine.readReg r = s.readReg r := rfl

@[simp] theorem State.readReg_commit (regW : Option (RegIndex × Word)) (memW : Option (Word × Word)) (npc : Word)
    (r : RegIndex) : (s.commit regW memW npc).readReg r = (s.writeBack regW).readReg r :=
  State.readReg_congr (by simp) r

/-! ### readyToFetch and withFetchWord -/

@[simp] theorem State.readyToFetch_run : s.readyToFetch.run = .running := rfl
@[simp] theorem State.readyToFetch_cause : s.readyToFetch.cause = none := rfl
@[simp] theorem State.readyToFetch_regs : s.readyToFetch.regs = s.regs := rfl
@[simp] theorem State.readyToFetch_mem : s.readyToFetch.mem = s.mem := rfl
@[simp] theorem State.readyToFetch_cfg : s.readyToFetch.cfg = s.cfg := rfl
@[simp] theorem State.readyToFetch_flags : s.readyToFetch.flags = s.flags := rfl

theorem State.withFetchWord_eq (nbits w : Nat) :
    s.withFetchWord nbits w = s.readyToFetch.storeWord s.readyToFetch.pc (BitVec.ofNat 32 (w % 2 ^ nbits)) := rfl

end Sys2Proof.Machine
end

