-- ==== Sys2Proof/Laws/Ops.lean ====
section
/-!
SUPPORT. One lemma per shared operation that says everything it can do, in the terms of Safety.lean.
-/

namespace Sys2Proof.Machine

theorem SameMemory_of_mem_eq {s t : State} (h : t.mem = s.mem) : SameMemory s t := fun a => by rw [h]

/-- The write a destination field asks for is the register write port's, register 0 discarded. -/
theorem writeBack_destination (s : State) (rd : RegIndex) (v : Word) :
    s.writeBack (destination rd v) = s.writeReg rd v := by
  unfold destination
  split
  · rename_i h; subst h; simp
  · rfl

/-- A cycle that ends in the register write: the register, the pc and the report, and nothing else. -/
theorem commit_writesRegister (s : State) (rd : RegIndex) (v npc : Word) :
    WritesRegister rd v npc s (s.commit (destination rd v) none npc) := by
  refine ⟨?_, fun r hr => ?_, SameMemory_of_mem_eq ?_, by simp, by simp [SameRun, SameSetting], ?_⟩
  · simp [writeBack_destination]
  · simp [writeBack_destination, State.readReg_writeReg, hr]
  · simp
  · simp [ReportsCycle, destination]

/-- finishReg is such a cycle. -/
theorem finishReg_spec (s : State) (rd : RegIndex) (v : Word) :
    ∃ t, s.finishReg rd v = .next t ∧ WritesRegister rd v (s.pc + 4#32) s t :=
  ⟨_, rfl, commit_writesRegister s rd v _⟩

/-- A cycle that writes the pc alone. -/
theorem commit_writesPcOnly (s : State) (npc : Word) : WritesPcOnly npc s (s.commit none none npc) := by
  refine ⟨fun r => ?_, SameMemory_of_mem_eq ?_, by simp, by simp [SameRun, SameSetting], ?_⟩
  · simp
  · simp
  · simp [ReportsCycle]

/-- finishJump is such a cycle. -/
theorem finishJump_spec (s : State) (npc : Word) :
    ∃ t, s.finishJump npc = .next t ∧ WritesPcOnly npc s t :=
  ⟨_, rfl, commit_writesPcOnly s npc⟩

/-- A cycle that stores a word. -/
theorem commit_storesWord (s : State) (hm : s.mem.wf) (ea v npc : Word) :
    StoresWord ea v npc s (s.commit none (some (ea, v)) npc) := by
  refine ⟨?_, fun a ha => ?_, fun r => ?_, by simp, by simp [SameRun, SameSetting], ?_⟩
  · simp [Memory.readWord_writeWord_same _ hm]
  · simp [Memory.readByte_writeWord_of_ne _ hm _ _ _ ha]
  · simp
  · simp [ReportsCycle]

/-- Taking a termination: the run state, the cause and the diagnostic, and nothing else. -/
theorem terminate_spec (s : State) (c : Cause) : TerminatesWith c s (s.terminate c) := by
  refine ⟨rfl, rfl, fun r => rfl, fun a => rfl, rfl, ⟨rfl, rfl, rfl, rfl⟩, rfl⟩

/-- What the host's turn can come to. -/
theorem hostTurn_cases (s : State) :
    (s.flags.interactive = false ∧ s.hostTurn = .proceed s) ∨
    (s.flags.interactive = true ∧ quits s.hostLine = true ∧ s.hostTurn = .quit s.takeLine) ∨
    (s.flags.interactive = true ∧ quits s.hostLine = false ∧ s.hostTurn = .proceed s.takeLine) := by
  unfold State.hostTurn
  cases s.flags.interactive <;> cases quits s.hostLine <;> simp

/-- The host's turn changes nothing of the core: a cycle starts from the registers, memory, pc, run state, cause,
configuration and emissions before it. -/
theorem proceed_core {s t : State} (h : s.hostTurn = .proceed t) :
    t.regs = s.regs ∧ t.pc = s.pc ∧ t.mem = s.mem ∧ t.run = s.run ∧ t.cause = s.cause ∧ t.cfg = s.cfg ∧
      t.flags = s.flags ∧ t.events = s.events := by
  rcases hostTurn_cases s with ⟨_, h'⟩ | ⟨_, _, h'⟩ | ⟨_, _, h'⟩ <;> rw [h'] at h <;> cases h <;> simp

/-- What fetching and decoding can come to. -/
theorem fetchDecode_cases (s : State) :
    (¬ FetchOk s.cfg s.pc ∧ s.fetchDecode = .error (.fetchFault s.pc)) ∨
    (FetchOk s.cfg s.pc ∧ ∃ e, decode s.fetchedWord = .error e ∧
      s.fetchDecode = .error (verdictCause s.pc s.fetchedWord e)) ∨
    (FetchOk s.cfg s.pc ∧ ∃ i, decode s.fetchedWord = .ok i ∧ s.fetchDecode = .ok i) := by
  unfold State.fetchDecode
  by_cases h : FetchOk s.cfg s.pc
  · rw [if_pos h]
    cases hd : decode s.fetchedWord with
    | error e => exact .inr (.inl ⟨h, e, rfl, rfl⟩)
    | ok i => exact .inr (.inr ⟨h, i, rfl, rfl⟩)
  · exact .inl ⟨h, if_neg h⟩

/-- Every cause that fetch and decode give records the pc. -/
theorem fetchDecode_error_pc {s : State} {c : Cause} (h : s.fetchDecode = .error c) : c.pc? = some s.pc := by
  rcases fetchDecode_cases s with ⟨_, h'⟩ | ⟨_, e, _, h'⟩ | ⟨_, i, _, h'⟩ <;> rw [h'] at h <;> cases h
  · rfl
  · cases e <;> rfl

end Sys2Proof.Machine
end

