-- ==== Sys2Proof/Laws/PerInstr.lean ====
section
/-!
SUPPORT. Statements for all instructions, one lemma per constructor. EncodeNonzero: a well-formed instruction other
than the sentinel is encoded by a word that is not the sentinel's (spec 30_encoding.md R64).
-/

namespace Sys2Proof.Laws.EncodeNonzero

/-- The word of a well-formed instruction other than the sentinel is not zero. -/
def Statement (i : Instr) : Prop := i.WellFormed → i ≠ .sentinel → encode i ≠ 0#32

theorem of_opcode {i : Instr} (h : opcodeField (encode i) ≠ 0#6) : Statement i := fun _ _ => ne_zero_of_opcode _ h
theorem of_funct {i : Instr} (h : functField (encode i) ≠ 0#6) : Statement i := fun _ _ => ne_zero_of_funct _ h

section
variable (rs rt rd : RegIndex) (shamt : BitVec 5) (imm16 : BitVec 16) (target26 : BitVec 26)

theorem sentinel : Statement .sentinel := fun _ h => absurd rfl h

theorem sll : Statement (.sll rs rt rd shamt) := fun hw _ h => by
  have hs := congrArg rsField h
  have ht := congrArg rtField h
  have hd := congrArg rdField h
  have hsh := congrArg shamtField h
  simp only [encode, rsField_encodeR, rtField_encodeR, rdField_encodeR, shamtField_encodeR] at hs ht hd hsh
  subst hs ht hd hsh
  exact absurd hw (by decide)

theorem srl : Statement (.srl rs rt rd shamt) := of_funct (by simp [encode])
theorem jr : Statement (.jr rs rt rd shamt) := of_funct (by simp [encode])
theorem addu : Statement (.addu rs rt rd shamt) := of_funct (by simp [encode])
theorem subu : Statement (.subu rs rt rd shamt) := of_funct (by simp [encode])
theorem and : Statement (.and rs rt rd shamt) := of_funct (by simp [encode])
theorem or : Statement (.or rs rt rd shamt) := of_funct (by simp [encode])
theorem slt : Statement (.slt rs rt rd shamt) := of_funct (by simp [encode])
theorem j : Statement (.j target26) := of_opcode (by simp [encode])
theorem jal : Statement (.jal target26) := of_opcode (by simp [encode])
theorem beq : Statement (.beq rs rt imm16) := of_opcode (by simp [encode])
theorem bne : Statement (.bne rs rt imm16) := of_opcode (by simp [encode])
theorem addiu : Statement (.addiu rs rt imm16) := of_opcode (by simp [encode])
theorem andi : Statement (.andi rs rt imm16) := of_opcode (by simp [encode])
theorem ori : Statement (.ori rs rt imm16) := of_opcode (by simp [encode])
theorem lui : Statement (.lui rs rt imm16) := of_opcode (by simp [encode])
theorem lw : Statement (.lw rs rt imm16) := of_opcode (by simp [encode])
theorem sw : Statement (.sw rs rt imm16) := of_opcode (by simp [encode])

end

end Sys2Proof.Laws.EncodeNonzero
end

