-- ==== Sys2Proof/Laws/Step.lean ====
section
/-!
SUPPORT. What an instruction and a step can do, said once: an instruction always answers a next state, which is either a
committed cycle or a termination; a step is a host quit, a fetch or decode termination, or an instruction.
-/

namespace Sys2Proof.Machine

/-! ### Loads and stores by the verdict on their address -/

section
variable {s : State} {rs rt : RegIndex} {imm16 : BitVec 16}

theorem exec_lw_valid (h : ValidData s.cfg (effectiveAddress (s.readReg rs) imm16)) :
    exec (.lw rs rt imm16) s = s.finishReg rt (s.mem.readWord (effectiveAddress (s.readReg rs) imm16).toNat) := if_pos h

theorem exec_lw_invalid (h : ¬ ValidData s.cfg (effectiveAddress (s.readReg rs) imm16)) :
    exec (.lw rs rt imm16) s = .next (s.terminate (.memoryAccess s.pc (effectiveAddress (s.readReg rs) imm16))) :=
  if_neg h

theorem exec_sw_valid (h : ValidData s.cfg (effectiveAddress (s.readReg rs) imm16)) :
    exec (.sw rs rt imm16) s =
      .next (s.commit none (some (effectiveAddress (s.readReg rs) imm16, s.readReg rt)) s.nextPc) := if_pos h

theorem exec_sw_invalid (h : ¬ ValidData s.cfg (effectiveAddress (s.readReg rs) imm16)) :
    exec (.sw rs rt imm16) s = .next (s.terminate (.memoryAccess s.pc (effectiveAddress (s.readReg rs) imm16))) :=
  if_neg h

end

/-! ### The ends of an instruction -/

/-- The three ends of an instruction: a commit without a store, a commit of a store to a valid address, a
termination. -/
inductive InstrEnd (i : Instr) (s : State) : State → Prop where
  /-- At most one register is written, never register 0; memory is not. -/
  | completes (regW : Option (RegIndex × Word)) (npc : Word) (h : ∀ r v, regW = some (r, v) → r ≠ 0) :
      InstrEnd i s (s.commit regW none npc)
  /-- sw alone. -/
  | stores (rs rt : RegIndex) (imm16 : BitVec 16) (hi : i = .sw rs rt imm16) (ea v : Word) (h : ValidData s.cfg ea) :
      InstrEnd i s (s.commit none (some (ea, v)) s.nextPc)
  /-- The sentinel. -/
  | sentinelEnds (hi : i = .sentinel) : InstrEnd i s (s.terminate (.sentinel s.pc))
  /-- lw and sw at an invalid address. -/
  | accessEnds (rs rt : RegIndex) (imm16 : BitVec 16) (hi : i = .lw rs rt imm16 ∨ i = .sw rs rt imm16)
      (h : ¬ ValidData s.cfg (effectiveAddress (s.readReg rs) imm16)) :
      InstrEnd i s (s.terminate (.memoryAccess s.pc (effectiveAddress (s.readReg rs) imm16)))

theorem destination_ne_zero (rd : RegIndex) (v : Word) (r : RegIndex) (w : Word)
    (h : destination rd v = some (r, w)) : r ≠ 0 := by
  unfold destination at h
  split at h
  · cases h
  · cases h; assumption

theorem finishReg_end (i : Instr) (s : State) (rd : RegIndex) (v : Word) :
    ∃ t, s.finishReg rd v = .next t ∧ InstrEnd i s t :=
  ⟨_, rfl, .completes _ _ (destination_ne_zero rd v)⟩

theorem finishJump_end (i : Instr) (s : State) (npc : Word) : ∃ t, s.finishJump npc = .next t ∧ InstrEnd i s t :=
  ⟨_, rfl, .completes none npc (by simp)⟩

/-- Every instruction answers a next state, of one of the three ends. -/
theorem exec_end (i : Instr) (s : State) : ∃ t, exec i s = .next t ∧ InstrEnd i s t := by
  cases i with
  | sentinel => exact ⟨_, rfl, .sentinelEnds rfl⟩
  | sll | srl | addu | subu | and | or | slt | addiu | andi | ori | lui => exact finishReg_end _ s _ _
  | jr | j | beq | bne => exact finishJump_end _ s _
  | jal => exact ⟨_, rfl, .completes _ _ (by rintro r v h; cases h; decide)⟩
  | lw rs rt imm16 =>
    by_cases h : ValidData s.cfg (effectiveAddress (s.readReg rs) imm16)
    · rw [exec_lw_valid h]; exact finishReg_end _ s _ _
    · exact ⟨_, exec_lw_invalid h, .accessEnds rs rt imm16 (.inl rfl) h⟩
  | sw rs rt imm16 =>
    by_cases h : ValidData s.cfg (effectiveAddress (s.readReg rs) imm16)
    · exact ⟨_, exec_sw_valid h, .stores rs rt imm16 rfl _ _ h⟩
    · exact ⟨_, exec_sw_invalid h, .accessEnds rs rt imm16 (.inr rfl) h⟩

/-- The ends of a step of a running machine. -/
inductive StepEnd (s : State) : State → Prop where
  /-- The host quits. -/
  | quits (h : s.hostTurn = .quit s.takeLine) : StepEnd s (s.takeLine.terminate (.hostQuit s.pc))
  /-- The fetch or the decode ends the run. -/
  | fetchEnds (t : State) (c : Cause) (h : s.hostTurn = .proceed t) (hc : t.fetchDecode = .error c) :
      StepEnd s (t.terminate c)
  /-- The instruction at the pc runs. -/
  | runs (t u : State) (i : Instr) (h : s.hostTurn = .proceed t) (hi : t.fetchDecode = .ok i) (hu : exec i t = .next u)
      (he : InstrEnd i t u) : StepEnd s u

/-- Once TERMINATED no step is enabled. -/
theorem step_of_terminated {s : State} (h : s.run = .terminated) : step s = .fault .runEnded := by
  unfold step; rw [h]

/-- A running machine always has a next state. -/
theorem step_of_running {s : State} (h : s.run = .running) : ∃ t, step s = .next t ∧ StepEnd s t := by
  unfold step
  rw [h]
  rcases hostTurn_cases s with ⟨_, ht⟩ | ⟨_, _, ht⟩ | ⟨_, _, ht⟩
  case inr.inl => exact ⟨_, by rw [ht]; rfl, .quits ht⟩
  all_goals
    simp only [ht]
    split
    · rename_i c hc
      exact ⟨_, rfl, .fetchEnds _ c ht hc⟩
    · rename_i i hi
      obtain ⟨u, hu, he⟩ := exec_end i _
      exact ⟨u, hu, .runs _ u i ht hi hu he⟩

/-- What a step that answers a next state did. -/
theorem step_cases {s t : State} (h : step s = .next t) : s.run = .running ∧ StepEnd s t := by
  cases hr : s.run with
  | terminated => rw [step_of_terminated hr] at h; cases h
  | running =>
    obtain ⟨u, hu, he⟩ := step_of_running hr
    rw [h] at hu
    cases hu
    exact ⟨rfl, he⟩

/-- A step whose cycle runs: the fetch and the decode, then the instruction. -/
theorem step_of_runsCycle {s t : State} (h : RunsCycle s t) :
    step s = match t.fetchDecode with
      | .error c => .next (t.terminate c)
      | .ok i => exec i t := by
  unfold step
  rw [h.1]
  (simp only [h.2]) <;> rfl

/-- A step whose host turn quits. -/
theorem step_of_quit {s t : State} (hr : s.run = .running) (h : s.hostTurn = .quit t) :
    step s = .next (t.terminate (.hostQuit t.pc)) := by
  unfold step
  rw [hr]
  simp only [h]

/-- A run of one step more, of any machine. -/
theorem run_succ_of_core (M : Host.Core) {k : Nat} {s t : M.State} (h : M.run (k + 1) s = .next t) :
    ∃ u, M.step s = .next u ∧ M.run k u = .next t := by
  rw [Host.Core.run] at h
  split at h
  · rename_i u hs; exact ⟨u, hs, h⟩
  · cases h
  · cases h

/-- A run of one step more. -/
theorem run_succ {k : Nat} {s t : State} (h : Host.Core.run Sys2Proof.core (k + 1) s = .next t) :
    ∃ u, step s = .next u ∧ Host.Core.run Sys2Proof.core k u = .next t :=
  run_succ_of_core Sys2Proof.core h

/-- InImage depends on the memory and the configuration alone. -/
theorem InImage_congr {s t : State} (hm : t.mem = s.mem) (hc : t.cfg = s.cfg) (h : InImage s) : InImage t := by
  unfold InImage
  rw [hm, hc]
  exact h

end Sys2Proof.Machine
end

