-- ==== Sys2Proof/Tests/Slice0.lean ====
section
/-!
SUPPORT. Tests on fixed values and the witnesses of the statements' hypotheses. Expected results are those of spec
95_test_vectors.md (S, V and P names) or the examples of the rule named; none was taken from the model.
-/

namespace Sys2Proof.Tests

open Sys2Proof Sys2Proof.Machine

/-! ### Helpers -/

/-- The reset state with registers set. -/
def withRegs (rs : List (RegIndex × Word)) : State := rs.foldl (fun s p => s.writeReg p.1 p.2) State.reset

/-- The reset state with registers and the pc set and a word placed at that pc. -/
def probe (pc : Word) (w : Nat) (rs : List (RegIndex × Word)) : State := ((withRegs rs).setPc pc).withFetchWord 32 w

/-- The state one step gives. -/
def after (s : State) : Option State :=
  match step s with
  | .next t => some t
  | .fault _ => none
  | .refused _ => none

/-- One register and the pc after running a word at INSTR_BASE. -/
def result (w : Nat) (rs : List (RegIndex × Word)) (r : RegIndex) : Option (Word × Word) :=
  (after (probe 0x00400000#32 w rs)).map (fun t => (t.readReg r, t.pc))

/-- The pc and register 31 after running a word at a pc. -/
def jumped (pc : Word) (w : Nat) (rs : List (RegIndex × Word)) : Option (Word × Word) :=
  (after (probe pc w rs)).map (fun t => (t.pc, t.readReg 31))

/-- The run state, the cause and the events after a step. -/
def ended (s : State) : Option (RunState × Option Cause × List Event) :=
  (after s).map (fun t => (t.run, t.cause, t.events))

/-- The smallest image, ending at a given address. -/
def smallConfig (base : Word) : Config :=
  { instrBase := base, numInstr := 1, numData := 1, sltOverflow := .trueLess }

/-- The reset state under the reading TRUE_LESS. -/
def trueLessReset : State := { State.reset with cfg := { Config.reference with sltOverflow := .trueLess } }

/-- The reset state in interactive mode with lines supplied. -/
def interactiveWith (ls : List HostLine) : State :=
  { State.reset with flags := { HostFlags.off with interactive := true }, hostLines := ls }

/-! ### Well-formedness -/

theorem test_wellFormed_refuses_zero_sll : ¬ (Instr.sll 0 0 0 0).WellFormed := by decide
theorem test_wellFormed_takes_noop_sll : (Instr.sll 0 0 0 1).WellFormed := by decide
theorem test_wellFormed_takes_sentinel : Instr.sentinel.WellFormed := by decide

/-! ### Decoding: words written out from the formats of 30_encoding.md (opcode, rs, rt, rd, shamt, funct) -/

theorem test_decode_sentinel : decode 0b000000_00000_00000_00000_00000_000000#32 = .ok .sentinel := by decide
theorem test_decode_sll : decode 0b000000_00001_00010_00011_11111_000000#32 = .ok (.sll 1 2 3 31) := by decide
theorem test_decode_srl : decode 0b000000_00000_00100_00101_11100_000010#32 = .ok (.srl 0 4 5 28) := by decide
theorem test_decode_jr : decode 0b000000_11111_00000_00000_00000_001000#32 = .ok (.jr 31 0 0 0) := by decide
theorem test_decode_addu : decode 0b000000_00001_00010_00011_00000_100001#32 = .ok (.addu 1 2 3 0) := by decide
theorem test_decode_subu : decode 0b000000_00001_00010_00011_00000_100011#32 = .ok (.subu 1 2 3 0) := by decide
theorem test_decode_and : decode 0b000000_01011_01010_01001_11111_100100#32 = .ok (.and 11 10 9 31) := by decide
theorem test_decode_or : decode 0b000000_00001_00010_00011_00000_100101#32 = .ok (.or 1 2 3 0) := by decide
theorem test_decode_slt : decode 0b000000_00001_00010_00011_00000_101010#32 = .ok (.slt 1 2 3 0) := by decide
theorem test_decode_j : decode 0b000010_00000100000000000000001000#32 = .ok (.j 0x100008#26) := by decide
theorem test_decode_jal : decode 0b000011_10000100000000000000000101#32 = .ok (.jal 0x2100005#26) := by decide
theorem test_decode_beq : decode 0b000100_00001_00010_0000000000000011#32 = .ok (.beq 1 2 3) := by decide
theorem test_decode_bne : decode 0b000101_01000_00001_1111111111111101#32 = .ok (.bne 8 1 0xFFFD#16) := by decide
theorem test_decode_addiu : decode 0b001001_00010_00001_1000000000000000#32 = .ok (.addiu 2 1 0x8000#16) := by decide
theorem test_decode_andi : decode 0b001100_00010_00001_0000000011111111#32 = .ok (.andi 2 1 0xFF#16) := by decide
theorem test_decode_ori : decode 0b001101_00010_00001_0001000000000000#32 = .ok (.ori 2 1 0x1000#16) := by decide
theorem test_decode_lui : decode 0b001111_00010_00001_0000000001000000#32 = .ok (.lui 2 1 0x40#16) := by decide
theorem test_decode_lw : decode 0b100011_01000_01010_0000000000000100#32 = .ok (.lw 8 10 4) := by decide
theorem test_decode_sw : decode 0b101011_01000_01001_0000000000000100#32 = .ok (.sw 8 9 4) := by decide

/-- V-D.2 to V-D.6 and V-D.9: the words the decoder rejects. -/
theorem test_decode_rejects :
    decode 0x04000000#32 = .error .illegalOpcode ∧ decode 0x20010005#32 = .error .illegalOpcode ∧
      decode 0xFC000000#32 = .error .illegalOpcode ∧ decode 0x00221820#32 = .error .illegalFunct ∧
      decode 0x0000000C#32 = .error .illegalFunct ∧ decode 0x03E00009#32 = .error .illegalFunct := by decide

/-- V-H.1's bytes, and one byte too few. -/
theorem test_decode_bytes :
    decodeBytes [0x24#8, 0x01#8, 0x00#8, 0x05#8, 0x99#8] = .ok (.addiu 0 1 5, [0x99#8]) ∧
      decodeBytes [0x24#8, 0x01#8, 0x00#8] = .error .truncated := by decide

theorem test_encode_addu : encode (.addu 1 2 3 0) = 0x00221821#32 := by decide
theorem test_encode_lw : encode (.lw 8 10 4) = 0x8D0A0004#32 := by decide

/-- S1.5, S1.6, S1.7: the segment is that of the jump's own pc. -/
theorem test_jumpTarget :
    jumpTarget 0x00400000#32 0x100004#26 = 0x00400010#32 ∧ jumpTarget 0x10000000#32 0x100004#26 = 0x10400010#32 ∧
      jumpTarget 0x0FFFFFFC#32 0x100008#26 = 0x00400020#32 := by decide

/-! ### Instructions -/

/-- V-AR.2. -/
theorem test_sll : result 0x00021FC0 [(2, 3#32)] 3 = some (0x80000000#32, 0x00400004#32) := by decide
/-- V-AR.3. -/
theorem test_sll_4 : result 0x00021900 [(2, 0xFFFFFFFF#32)] 3 = some (0xFFFFFFF0#32, 0x00400004#32) := by decide
/-- V-AR.5. -/
theorem test_srl : result 0x00021FC2 [(2, 0x80000000#32)] 3 = some (1#32, 0x00400004#32) := by decide
/-- V-AR.10. -/
theorem test_addu_wraps : result 0x00221821 [(1, 0xFFFFFFFF#32), (2, 1#32)] 3 = some (0#32, 0x00400004#32) := by decide
/-- 2.3's closing text: both sources are read before the write. -/
theorem test_addu_same : result 0x00210821 [(1, 5#32)] 1 = some (10#32, 0x00400004#32) := by decide
/-- V-AR.13. -/
theorem test_subu : result 0x00221823 [(1, 3#32), (2, 5#32)] 3 = some (0xFFFFFFFE#32, 0x00400004#32) := by decide
/-- V-AR.14. -/
theorem test_and :
    result 0x00221824 [(1, 0xF0F0F0F0#32), (2, 0x0FF00FF0#32)] 3 = some (0x00F000F0#32, 0x00400004#32) := by decide
/-- R107's example. -/
theorem test_or :
    result 0x00221825 [(1, 0x0000FF00#32), (2, 0x000000FF#32)] 3 = some (0x0000FFFF#32, 0x00400004#32) := by decide
/-- V-AR.24 under WRAP_SIGN. -/
theorem test_slt_wrap_sign :
    result 0x0022182A [(1, 0x80000000#32), (2, 1#32)] 3 = some (0#32, 0x00400004#32) := by decide
/-- V-AR.18, V-AR.20, V-AR.22, V-AR.23, V-AR.25 under both readings. -/
theorem test_slt_readings :
    sltResult .wrapSign 1#32 2#32 = 1#32 ∧ sltResult .wrapSign 0xFFFFFFFF#32 0#32 = 1#32 ∧
      sltResult .trueLess 0xFFFFFFFF#32 0#32 = 1#32 ∧ sltResult .wrapSign 5#32 5#32 = 0#32 ∧
      sltResult .wrapSign 0x7FFFFFFF#32 0xFFFFFFFF#32 = 1#32 ∧ sltResult .trueLess 0x7FFFFFFF#32 0xFFFFFFFF#32 = 0#32 ∧
      sltResult .wrapSign 0x80000000#32 0x7FFFFFFF#32 = 0#32 ∧
      sltResult .trueLess 0x80000000#32 0x7FFFFFFF#32 = 1#32 := by decide
/-- V-AI.2. -/
theorem test_addiu_negative : result 0x24418000 [] 1 = some (0xFFFF8000#32, 0x00400004#32) := by decide
/-- V-AI.3. -/
theorem test_addiu_no_trap : result 0x24410001 [(2, 0x7FFFFFFF#32)] 1 = some (0x80000000#32, 0x00400004#32) := by decide
/-- V-AI.8: the mask is sign-extended. -/
theorem test_andi : result 0x3041FFFF [(2, 0x12345678#32)] 1 = some (0x12345678#32, 0x00400004#32) := by decide
/-- V-AI.9. -/
theorem test_andi_positive : result 0x30417FFF [(2, 0x12345678#32)] 1 = some (0x00005678#32, 0x00400004#32) := by decide
/-- V-AI.12. -/
theorem test_ori : result 0x34418001 [(2, 0x12340000#32)] 1 = some (0xFFFF8001#32, 0x00400004#32) := by decide
/-- V-AI.17: the rs field is ignored. -/
theorem test_lui : result 0x3C410040 [(2, 0xFFFFFFFF#32)] 1 = some (0x00400000#32, 0x00400004#32) := by decide
/-- V-AI.18 and S3.1: a destination of register 0 writes nothing and is reported as no register updated. -/
theorem test_register_zero :
    (after (probe 0x00400000#32 0x24000005 [])).map (fun t => (t.readReg 0, t.events)) =
      some (0#32, [.report ⟨0x00400000#32, 0x24000005#32, 0x00400004#32, none, none⟩]) := by decide

/-- V-LS.7 over a stored word: a negative offset. -/
theorem test_lw :
    (after ((withRegs [(2, 0x00401010#32)]).storeWord 0x00401000#32 0xCAFEF00D#32 |>.withFetchWord 32 0x8C41FFF0)).map
      (fun t => (t.readReg 1, t.pc)) = some (0xCAFEF00D#32, 0x00400004#32) := by decide
/-- S6a.1: the run ends, x10 and the pc as they were. -/
theorem test_lw_below_the_region :
    ended (probe 0x00400000#32 0x8D0AFFFC [(8, 0x00401000#32)]) =
      some (.terminated, some (.memoryAccess 0x00400000#32 0x00400FFC#32), [.diagnostic 0x00400000#32 0x00400FFC#32]) := by
  decide
/-- V-LS.12: the word, the bytes and the report. -/
theorem test_sw :
    (after (probe 0x00400000#32 0xAC410000 [(1, 0xCAFEF00D#32), (2, 0x00401000#32)])).map
        (fun t => (t.mem.readWord 0x00401000, t.mem.readByte 0x00401000, t.events)) =
      some (0xCAFEF00D#32, 0xCA#8,
        [.report ⟨0x00400000#32, 0xAC410000#32, 0x00400004#32, none, some (0x00401000#32, 0xCAFEF00D#32)⟩]) := by decide
/-- V-LS.13: the stack pointer at reset is one past the data region. -/
theorem test_sw_at_reset_stack_pointer :
    ended (probe 0x00400000#32 0xAFA80000 []) =
      some (.terminated, some (.memoryAccess 0x00400000#32 0x00404000#32), [.diagnostic 0x00400000#32 0x00404000#32]) := by
  decide

/-- S4.1 and S4.2. -/
theorem test_beq :
    jumped 0x00400000#32 0x10220003 [(1, 7#32), (2, 7#32)] = some (0x00400010#32, 0#32) ∧
      jumped 0x00400000#32 0x10220003 [(1, 7#32), (2, 8#32)] = some (0x00400004#32, 0#32) := by decide
/-- V-CT.7: a backward branch by the largest offset. -/
theorem test_beq_far : jumped 0x00400000#32 0x10008000 [] = some (0x003E0004#32, 0#32) := by decide
/-- V-CT.4 and V-CT.6. -/
theorem test_bne :
    jumped 0x00400000#32 0x14210005 [(1, 9#32)] = some (0x00400004#32, 0#32) ∧
      jumped 0x00400000#32 0x1500FFFF [(8, 1#32)] = some (0x00400000#32, 0#32) := by decide
/-- V-CT.8. -/
theorem test_j : jumped 0x00400004#32 0x08100008 [] = some (0x00400020#32, 0#32) := by decide
/-- V-CT.10. -/
theorem test_jal : jumped 0x00400010#32 0x0C100010 [] = some (0x00400040#32, 0x00400014#32) := by decide
/-- V-CT.13: the pc takes a misaligned value. -/
theorem test_jr : jumped 0x00400000#32 0x01400008 [(10, 6#32)] = some (0x00000006#32, 0#32) := by decide
/-- V-D.1 and V-H.2. -/
theorem test_sentinel : ended State.reset = some (.terminated, some (.sentinel 0x00400000#32), []) := by decide

/-- V-D.2 and V-D.5 through a step. -/
theorem test_illegal_words :
    ended (probe 0x00400000#32 0x04000000 []) =
        some (.terminated, some (.illegalOpcode 0x00400000#32 0x04000000#32), []) ∧
      ended (probe 0x00400000#32 0x00221820 []) =
        some (.terminated, some (.illegalFunct 0x00400000#32 0x00221820#32), []) := by decide

/-- V-F.1, V-F.2, V-F.3. -/
theorem test_fetch_faults :
    ended (State.reset.setPc 0x00400002#32) = some (.terminated, some (.fetchFault 0x00400002#32), []) ∧
      ended (State.reset.setPc 0x003FFFFC#32) = some (.terminated, some (.fetchFault 0x003FFFFC#32), []) ∧
      ended (State.reset.setPc 0x00404000#32) = some (.terminated, some (.fetchFault 0x00404000#32), []) := by decide

/-- V-F.6: the last word of the image. -/
theorem test_last_word : jumped 0x00403FFC#32 0x24010005 [] = some (0x00404000#32, 0#32) := by decide

/-! ### Loader and host -/

/-- P1's image bytes. -/
def p1 : List Byte :=
  [0x24#8, 0x01#8, 0x00#8, 0x05#8, 0x24#8, 0x02#8, 0x00#8, 0x03#8] ++
    [0x00#8, 0x22#8, 0x18#8, 0x21#8, 0x00#8, 0x00#8, 0x00#8, 0x00#8]

/-- V-H.7's lines: s, then quit. -/
def stepThenQuit : List HostLine := [['s'], ['q', 'u', 'i', 't']]

/-- What boot leaves of a started run, for P1's image. -/
def booted (flags : HostFlags) (lines : List HostLine) : Option State :=
  match boot Config.reference flags lines p1 with
  | .started s => some s
  | .noRun _ => none

/-- P1: the first cycle's report. -/
theorem test_p1_first_report :
    ((booted HostFlags.off []).bind after).map (fun t => (t.events, t.readReg 1)) =
      some ([.report ⟨0x00400000#32, 0x24010005#32, 0x00400004#32, some (1, 5#32), none⟩], 5#32) := by decide
/-- V-H.7: one cycle, then HOST_QUIT. -/
theorem test_interactive_quit :
    (((booted { HostFlags.off with interactive := true } stepThenQuit).bind after).bind after).map
        (fun t => (t.cause, t.readReg 1, t.pc)) =
      some (some (.hostQuit 0x00400004#32), 5#32, 0x00400004#32) := by decide
/-- V-H.3, V-H.4, V-H.5 in the smallest configuration. -/
theorem test_boot_checks :
    boot (smallConfig 0#32) HostFlags.off [] (List.replicate 5 1#8) = .noRun (.imageMalformed 5) ∧
      boot (smallConfig 0#32) HostFlags.off [] (List.replicate 8 1#8) = .noRun (.programTooLarge 2) ∧
      (boot (smallConfig 0#32) HostFlags.off [] (List.replicate 4 1#8) ==
        .noRun (.imageMalformed 4)) = false := by decide
/-- The blocks of 40_pipeline.md on V-LS.5. -/
theorem test_pipeline_fault :
    (interpreterCycle (probe 0x00400000#32 0x8C410000 [(2, 0x00400000#32)])).cause =
      some (.memoryAccess 0x00400000#32 0x00400000#32) := by decide

/-! ### Witnesses: states and operands that meet a statement's hypotheses, each clause at its boundary -/

/-- A running machine whose next cycle is the machine itself: no interactive mode. -/
theorem runsCycle_probe (pc : Word) (w : Nat) (h : ((withRegs []).setPc pc).flags.interactive = false) :
    RunsCycle (probe pc w []) (probe pc w []) := by
  refine ⟨rfl, ?_⟩
  simp only [State.hostTurn]
  rw [show (probe pc w []).flags = ((withRegs []).setPc pc).flags from rfl, h]
  rfl

theorem test_witness_DecodeOfEncodeIsIdentity :
    (Instr.sll 0 0 1 0).WellFormed ∧ (Instr.jal 0x3FFFFFF#26).WellFormed ∧ (Instr.sw 31 31 0xFFFF#16).WellFormed := by
  decide

theorem test_witness_EncodeOfDecodeIsIdentity :
    decode 0x00000000#32 = .ok .sentinel ∧ decode 0x00000040#32 = .ok (.sll 0 0 0 1) := by decide

theorem test_witness_SentinelEndsTheRun :
    RunsCycle State.reset State.reset ∧ FetchOk State.reset.cfg State.reset.pc ∧ State.reset.fetchedWord = 0#32 :=
  ⟨⟨rfl, rfl⟩, by decide, by decide⟩

/-- The last word of the image is fetched too. -/
theorem test_witness_IllegalOpcodeEndsTheRun :
    RunsCycle (probe 0x00403FFC#32 0xFC000000 []) (probe 0x00403FFC#32 0xFC000000 []) ∧
      FetchOk Config.reference (probe 0x00403FFC#32 0xFC000000 []).pc ∧
      ((probe 0x00403FFC#32 0xFC000000 []).fetchedWord.extractLsb' 26 6).toNat ∉ legalOpcodes :=
  ⟨runsCycle_probe _ _ rfl, by decide, by decide⟩

theorem test_witness_IllegalFunctEndsTheRun :
    RunsCycle (probe 0x00400000#32 0x00000001 []) (probe 0x00400000#32 0x00000001 []) ∧
      FetchOk Config.reference (probe 0x00400000#32 1 []).pc ∧ (probe 0x00400000#32 1 []).fetchedWord ≠ 0#32 ∧
      (probe 0x00400000#32 1 []).fetchedWord.extractLsb' 26 6 = 0#6 ∧
      ((probe 0x00400000#32 1 []).fetchedWord.extractLsb' 0 6).toNat ∉ legalFuncts :=
  ⟨runsCycle_probe _ _ rfl, by decide, by decide, by decide, by decide⟩

/-- Both sides of the equivalence: a run that ends with the sentinel and one that ends otherwise. -/
theorem test_witness_OnlyTheSentinelFinishes :
    (after State.reset).map (fun t => (t.run, t.cause)) = some (.terminated, some (.sentinel 0x00400000#32)) ∧
      (after (probe 0x00400000#32 0x04000000 [])).map (fun t => (t.run, t.cause)) =
        some (.terminated, some (.illegalOpcode 0x00400000#32 0x04000000#32)) := by decide

/-- A word of each pattern, ignored fields set (30_encoding.md R68); sll's is not the all-zero word. -/
theorem test_witness_register_patterns :
    (0x03E00000#32 &&& 0xFC00003F#32 = 0#32 ∧ 0x03E00000#32 ≠ 0#32) ∧ 0x03E00002#32 &&& 0xFC00003F#32 = 0x02#32 ∧
      0x00001FE1#32 &&& 0xFC00003F#32 = 0x21#32 ∧ 0x00001FE3#32 &&& 0xFC00003F#32 = 0x23#32 ∧
      0x00001FE4#32 &&& 0xFC00003F#32 = 0x24#32 ∧ 0x00001FE5#32 &&& 0xFC00003F#32 = 0x25#32 ∧
      0x00001FEA#32 &&& 0xFC00003F#32 = 0x2A#32 ∧ 0x001FFFC8#32 &&& 0xFC00003F#32 = 0x08#32 := by decide

theorem test_witness_immediate_patterns :
    0x27FFFFFF#32 &&& 0xFC000000#32 = 0x24000000#32 ∧ 0x33FFFFFF#32 &&& 0xFC000000#32 = 0x30000000#32 ∧
      0x37FFFFFF#32 &&& 0xFC000000#32 = 0x34000000#32 ∧ 0x3FFFFFFF#32 &&& 0xFC000000#32 = 0x3C000000#32 ∧
      0x8FFFFFFF#32 &&& 0xFC000000#32 = 0x8C000000#32 ∧ 0xAFFFFFFF#32 &&& 0xFC000000#32 = 0xAC000000#32 ∧
      0x13FFFFFF#32 &&& 0xFC000000#32 = 0x10000000#32 ∧ 0x17FFFFFF#32 &&& 0xFC000000#32 = 0x14000000#32 ∧
      0x0BFFFFFF#32 &&& 0xFC000000#32 = 0x08000000#32 ∧ 0x0FFFFFFF#32 &&& 0xFC000000#32 = 0x0C000000#32 := by decide

theorem test_witness_SltFollowsTheReading :
    State.reset.cfg.sltOverflow = .wrapSign ∧ trueLessReset.cfg.sltOverflow = .trueLess := by decide

theorem test_witness_OnlySltDependsOnTheReading :
    ∀ rs rt rd shamt, Instr.subu 1 2 3 0 ≠ .slt rs rt rd shamt := by intros; exact Instr.noConfusion

/-- Addresses on both sides of each bound of the data region, and misaligned ones inside it: S6.1, S6.2, S6a.1 to
S6a.4. -/
theorem test_witness_LwLoadsOrTerminates :
    (ValidData Config.reference 0x00401000#32 ∧ ValidData Config.reference 0x00403FFC#32) ∧
      ¬ ValidData Config.reference 0x00400FFC#32 ∧ ¬ ValidData Config.reference 0x00404000#32 ∧
      ¬ ValidData Config.reference 0x00401003#32 ∧ ¬ ValidData Config.reference 0x00400FFF#32 ∧
      (withRegs [(8, 0x00401000#32)]).readReg 8 + (0#16).signExtend 32 = 0x00401000#32 ∧
      (withRegs [(8, 0x00401000#32)]).readReg 8 + (0xFFFC#16).signExtend 32 = 0x00400FFC#32 := by decide

theorem test_witness_SwStoresOrTerminates :
    (withRegs [(8, 0x00403FFC#32)]).mem.wf ∧
      (withRegs [(8, 0x00403FFC#32)]).readReg 8 + (0#16).signExtend 32 = 0x00403FFC#32 ∧
      ValidData (withRegs [(8, 0x00403FFC#32)]).cfg 0x00403FFC#32 ∧
      ¬ ValidData (withRegs [(8, 0x00403FFC#32)]).cfg 0x00404000#32 := by decide

theorem test_witness_InvalidAccessIsDiagnosed :
    0x00404000#32 = State.reset.readReg 29 + (0#16).signExtend 32 ∧
      ¬ (State.reset.cfg.dataBase ≤ (0x00404000#32).toNat ∧ (0x00404000#32).toNat < State.reset.cfg.dataEnd ∧
        (0x00404000#32).toNat % 4 = 0) := by decide

/-- S8's operands, and register 0 as the load's target. -/
theorem test_witness_LoadReturnsTheStoredWord :
    (withRegs [(8, 0x00401000#32), (9, 0x1234#32)]).mem.wf ∧
      0x00401004#32 = (withRegs [(8, 0x00401000#32), (9, 0x1234#32)]).readReg 8 + (4#16).signExtend 32 ∧
      ValidData (withRegs [(8, 0x00401000#32), (9, 0x1234#32)]).cfg 0x00401004#32 := by decide

/-- V-F.5's operands: an instruction's word stored in the data region. -/
theorem test_witness_FetchSeesTheStoredWord :
    (withRegs [(8, 0x00401000#32), (9, 0x24010005#32)]).mem.wf ∧
      0x00401000#32 = (withRegs [(8, 0x00401000#32), (9, 0x24010005#32)]).readReg 8 + (0#16).signExtend 32 ∧
      ValidData (withRegs [(8, 0x00401000#32), (9, 0x24010005#32)]).cfg 0x00401000#32 ∧
      decode ((withRegs [(8, 0x00401000#32), (9, 0x24010005#32)]).readReg 9) = .ok (.addiu 0 1 5) := by decide

theorem test_witness_StoredBytesAreBigEndian :
    State.reset.mem.wf ∧ 0x00403FFC#32 = State.reset.readReg 29 + (0xFFFC#16).signExtend 32 ∧
      ValidData State.reset.cfg 0x00403FFC#32 := by decide

/-- An image that ends at 2^31 exactly, its last data word on one side of the verdict and its end on the other. -/
theorem test_witness_SignedBoundsAgree :
    (smallConfig 0x7FFFFFF8#32).memEnd = 2 ^ 31 ∧ ValidData (smallConfig 0x7FFFFFF8#32) 0x7FFFFFFC#32 ∧
      ¬ ValidData (smallConfig 0x7FFFFFF8#32) 0x80000000#32 := by decide

theorem test_witness_OnlyJrMisalignsThePc :
    (∃ t, step (probe 0x00403FFC#32 0x24010005 []) = .next t) ∧ (probe 0x00403FFC#32 0x24010005 []).pc.toNat % 4 = 0 ∧
      ∀ rs rt rd shamt, decode (probe 0x00403FFC#32 0x24010005 []).fetchedWord ≠ .ok (.jr rs rt rd shamt) := by
  refine ⟨⟨_, rfl⟩, by decide, fun rs rt rd shamt h => ?_⟩
  rw [show decode (probe 0x00403FFC#32 0x24010005 []).fetchedWord = .ok (.addiu 0 1 5) by decide] at h
  cases h

theorem test_witness_StepRunsTheDecodedInstruction :
    RunsCycle (probe 0x00403FFC#32 0x24010005 []) (probe 0x00403FFC#32 0x24010005 []) ∧
      FetchOk Config.reference 0x00403FFC#32 ∧
      decodeBytes [(probe 0x00403FFC#32 0x24010005 []).mem.readByte 0x00403FFC,
        (probe 0x00403FFC#32 0x24010005 []).mem.readByte 0x00403FFD,
        (probe 0x00403FFC#32 0x24010005 []).mem.readByte 0x00403FFE,
        (probe 0x00403FFC#32 0x24010005 []).mem.readByte 0x00403FFF] = .ok (.addiu 0 1 5, []) :=
  ⟨runsCycle_probe _ _ rfl, by decide, by decide⟩

theorem test_witness_StepIsThePipelineCycle :
    RunsCycle (probe 0x00400000#32 0x8C410000 []) (probe 0x00400000#32 0x8C410000 []) := runsCycle_probe _ _ rfl

/-- Each of the three ways a fetch goes wrong, on a running machine: V-F.1, V-F.2, V-F.3. -/
theorem test_witness_BadFetchEndsTheRun :
    (∀ pc, RunsCycle (State.reset.setPc pc) (State.reset.setPc pc)) ∧ (0x00400002#32).toNat % 4 ≠ 0 ∧
      (0x003FFFFC#32).toNat < Config.reference.instrBase.toNat ∧ Config.reference.memEnd ≤ (0x00404000#32).toNat :=
  ⟨fun _ => ⟨rfl, rfl⟩, by decide, by decide, by decide⟩

theorem test_witness_HostQuitEndsTheRun :
    (interactiveWith [['q']]).run = .running ∧ (interactiveWith [['q']]).flags.interactive = true ∧
      (interactiveWith [['q']]).hostLine = 'q' :: [] := by decide

/-- Both clauses; the line is empty, or starts with a letter before q. -/
theorem test_witness_OtherLinesLetTheCycleRun :
    (State.reset.run = .running ∧ State.reset.flags.interactive = false) ∧
      (interactiveWith [[]]).run = .running ∧ (interactiveWith [[]]).flags.interactive = true ∧
      (interactiveWith [[]]).hostLines = [] :: [] ∧ ([] : HostLine).head? ≠ some 'q' ∧
      (interactiveWith [['s', 'q']]).hostLines = ['s', 'q'] :: [] ∧ ['s', 'q'].head? ≠ some 'q' := by decide

theorem test_witness_FreeLineIsTheHostsChoice :
    (interactiveWith []).run = .running ∧ (interactiveWith []).flags.interactive = true ∧
      (interactiveWith []).hostLines = [] := by decide

theorem test_witness_NoStepOnceTerminated :
    (State.reset.terminate (.sentinel State.reset.pc)).run = .terminated := by decide

theorem test_witness_RunningMachineAlwaysSteps : State.reset.run = .running := by decide

/-- For TerminationIsPrecise and TerminationEmitsOnlyTheDiagnostic: a step that ends the run on a load, and one that
ends it on a fetch. -/
theorem test_witness_TerminationIsPrecise :
    (∃ t, step (probe 0x00400000#32 0x8C000000 []) = .next t ∧ t.run = .terminated) ∧
      ∃ t, step (State.reset.setPc 0x00404000#32) = .next t ∧ t.run = .terminated :=
  ⟨⟨_, rfl, rfl⟩, ⟨_, rfl, rfl⟩⟩

/-- A cycle that writes a register, and one that stores. -/
theorem test_witness_ReportIsTheWholeChange :
    (probe 0x00400000#32 0x24010005 []).mem.wf ∧
      (∃ t, step (probe 0x00400000#32 0x24010005 []) = .next t ∧ t.run = .running) ∧
      (probe 0x00400000#32 0xAFA1FFFC []).mem.wf ∧
      ∃ t, step (probe 0x00400000#32 0xAFA1FFFC []) = .next t ∧ t.run = .running :=
  ⟨by decide, ⟨_, rfl, rfl⟩, by decide, ⟨_, rfl, rfl⟩⟩

/-- No cycle, and one. -/
theorem test_witness_OneReportPerCompletedCycle :
    (∃ t, Host.Core.run Sys2Proof.core 0 State.reset = .next t ∧ State.run t = .running) ∧
      ∃ t, Host.Core.run Sys2Proof.core 1 (probe 0x00400000#32 0x24010005 []) = .next t ∧ State.run t = .running :=
  ⟨⟨State.reset, rfl, rfl⟩, ⟨_, rfl, rfl⟩⟩

/-- Both clauses: a running machine steps, a terminated one faults. -/
theorem test_witness_PrintFlagsDoNotMatter :
    ({ HostFlags.off with printAllRegisters := true } : HostFlags).interactive = State.reset.flags.interactive ∧
      (∃ t, step State.reset = .next t) ∧ step (State.reset.terminate (.sentinel State.reset.pc)) = .fault .runEnded :=
  ⟨rfl, ⟨_, rfl⟩, rfl⟩

/-- A state that meets the invariant with a word stored in the data region's last word. -/
theorem test_witness_EveryStepKeepsInv :
    Inv (probe 0x00403FFC#32 0x24010005 []) ∧ ∃ t, step (probe 0x00403FFC#32 0x24010005 []) = .next t :=
  ⟨⟨by decide, by decide, by unfold InImage; decide, by decide, .inl (by decide)⟩, ⟨_, rfl⟩⟩

theorem test_witness_InstructionRegionNeverChanges :
    (probe 0x00400000#32 0xAFA1FFFC []).mem.wf ∧
      (∃ t, Host.Core.run Sys2Proof.core 1 (probe 0x00400000#32 0xAFA1FFFC []) = .next t) ∧
      0x00400FFF < Config.reference.dataBase ∧ ¬ 0x00401000 < Config.reference.dataBase :=
  ⟨by decide, ⟨_, rfl⟩, by decide, by decide⟩

/-- For BootEstablishesInv, BootSetsRegistersAndPc, BootLoadsTheImage and EmptyImageEndsAtOnce: a legal configuration
that ends at 2^32 exactly, with a full image and with the empty one. -/
theorem test_witness_boot :
    (smallConfig 0xFFFFFFF8#32).Wf ∧ (smallConfig 0xFFFFFFF8#32).memEnd = 2 ^ 32 ∧
      (∃ s, boot (smallConfig 0xFFFFFFF8#32) HostFlags.off [] [0x24#8, 0x01#8, 0x00#8, 0x05#8] = .started s) ∧
      ∃ s, boot (smallConfig 0xFFFFFFF8#32) HostFlags.off [] [] = .started s :=
  ⟨by decide, by decide, ⟨_, rfl⟩, ⟨_, rfl⟩⟩

/-- Clause by clause: malformed, one word too many, exactly full. -/
theorem test_witness_BootRefusesBadImages :
    (List.replicate 5 (1#8)).length % 4 ≠ 0 ∧
      ((List.replicate 8 (1#8)).length % 4 = 0 ∧ (smallConfig 0#32).numInstr < (List.replicate 8 (1#8)).length / 4) ∧
      (List.replicate 4 (1#8)).length % 4 = 0 ∧ (List.replicate 4 (1#8)).length / 4 ≤ (smallConfig 0#32).numInstr := by
  decide

theorem test_witness_PlacedWordRunsNext :
    State.reset.cfg.Wf ∧ State.reset.mem.wf ∧ decode 0x24010005#32 = .ok (.addiu 0 1 5) := by decide

end Sys2Proof.Tests
end

section
/-!
Noninterference of the setting: what an instruction computes does not depend on the configuration and the host's flags
but for the verdict on lw's and sw's address and slt's reading (spec 00_scope.md R8, 41_alu_register.md R108).
-/

namespace Sys2Proof.Machine

/-- The state with its configuration changed by `g` and its host flags by `f`. -/
def State.mapSetting (s : State) (g : Config → Config) (f : HostFlags → HostFlags) : State :=
  { s with cfg := g s.cfg, flags := f s.flags }

section
variable {s t : State} {g : Config → Config} {f : HostFlags → HostFlags}

/-! ### The operations that end a cycle commute with a change of setting -/

theorem State.writeBack_mapSetting (regW : Option (RegIndex × Word)) :
    (s.mapSetting g f).writeBack regW = (s.writeBack regW).mapSetting g f := by
  rcases regW with - | ⟨i, v⟩
  · rfl
  · simp only [State.writeBack_some, State.writeReg]
    split <;> rfl

theorem State.storeBack_mapSetting (memW : Option (Word × Word)) :
    (s.mapSetting g f).storeBack memW = (s.storeBack memW).mapSetting g f := by
  rcases memW with - | ⟨ea, v⟩ <;> rfl

theorem State.commit_mapSetting (regW : Option (RegIndex × Word)) (memW : Option (Word × Word)) (npc : Word) :
    (s.mapSetting g f).commit regW memW npc = (s.commit regW memW npc).mapSetting g f := by
  unfold State.commit
  rw [State.writeBack_mapSetting, State.storeBack_mapSetting]
  rfl

theorem State.finishReg_mapSetting {rd : RegIndex} {v : Word} (h : s.finishReg rd v = .next t) :
    (s.mapSetting g f).finishReg rd v = .next (t.mapSetting g f) := by
  cases h
  exact congrArg Host.Outcome.next (State.commit_mapSetting _ _ _)

theorem State.finishJump_mapSetting {npc : Word} (h : s.finishJump npc = .next t) :
    (s.mapSetting g f).finishJump npc = .next (t.mapSetting g f) := by
  cases h
  exact congrArg Host.Outcome.next (State.commit_mapSetting _ _ _)

/-! ### Instructions -/

/-- A change of setting that keeps the valid addresses, and for slt the reading, changes nothing an instruction does. -/
theorem exec_mapSetting {i : Instr} (hv : ∀ ea, ValidData (g s.cfg) ea ↔ ValidData s.cfg ea)
    (hslt : ∀ rs rt rd shamt, i = .slt rs rt rd shamt → (g s.cfg).sltOverflow = s.cfg.sltOverflow)
    (h : exec i s = .next t) : exec i (s.mapSetting g f) = .next (t.mapSetting g f) := by
  cases i with
  | sentinel => cases h; rfl
  | sll | srl | addu | subu | and | or | addiu | andi | ori | lui => exact State.finishReg_mapSetting h
  | slt rs rt rd shamt =>
    have hreading : (s.mapSetting g f).cfg.sltOverflow = s.cfg.sltOverflow := hslt rs rt rd shamt rfl
    unfold exec execSlt
    rw [hreading]
    exact State.finishReg_mapSetting h
  | jr | j | beq | bne => exact State.finishJump_mapSetting h
  | jal => cases h; exact congrArg Host.Outcome.next (State.commit_mapSetting _ _ _)
  | lw rs rt imm16 =>
    by_cases ha : ValidData s.cfg (effectiveAddress (s.readReg rs) imm16)
    · rw [exec_lw_valid ha] at h
      exact (exec_lw_valid ((hv _).2 ha)).trans (State.finishReg_mapSetting h)
    · rw [exec_lw_invalid ha] at h
      cases h
      exact exec_lw_invalid (mt (hv _).1 ha)
  | sw rs rt imm16 =>
    by_cases ha : ValidData s.cfg (effectiveAddress (s.readReg rs) imm16)
    · rw [exec_sw_valid ha] at h
      cases h
      exact (exec_sw_valid ((hv _).2 ha)).trans (congrArg Host.Outcome.next (State.commit_mapSetting _ _ _))
    · rw [exec_sw_invalid ha] at h
      cases h
      exact exec_sw_invalid (mt (hv _).1 ha)

end

/-- Settles O19: the reading is no part of the address map, so changing it leaves the verdict on every address as it
is, and no instruction but slt looks at it otherwise. -/
theorem onlySltDependsOnTheReading : Obligations.OnlySltDependsOnTheReading := by
  intro i s m hi
  obtain ⟨t, ht, -⟩ := exec_end i s
  exact ⟨t, ht, exec_mapSetting (g := fun c => { c with sltOverflow := m }) (f := id) (fun _ => Iff.rfl)
    (fun rs rt rd shamt h => absurd h (hi rs rt rd shamt)) ht⟩

end Sys2Proof.Machine
end

section
/-!
The machine's invariant (spec 10_state.md R19, R29, R31): the reset state has it, and each operation that ends a step
keeps it. Beside it the two facts about the reset state that the boot of the empty image is stated with (R34, R137,
R141).
-/

namespace Sys2Proof.Machine

/-! ### The reset state -/

section
variable (cfg : Config) (flags : HostFlags) (lines : List HostLine) (mem : Memory)

/-- Register 29 starts at MEM_END (R137). -/
theorem State.resetOf_readReg_29 : (State.resetOf cfg flags lines mem).readReg 29 = BitVec.ofNat 32 cfg.memEnd := by
  simp [State.readReg, State.resetOf]

/-- Neither check of the loader refuses the empty image, and it writes nothing. -/
theorem boot_nil : boot cfg flags lines [] = .started (State.resetOf cfg flags lines []) := by
  simp [boot, imageWords, loadWords]

/-- A reset over a canonical memory inside the image gives the invariant. -/
theorem resetOf_inv {cfg : Config} {mem : Memory} (hcfg : cfg.Wf) (hmem : mem.wf)
    (himage : InImage (State.resetOf cfg flags lines mem)) : Inv (State.resetOf cfg flags lines mem) where
  cfgWf := hcfg
  memWf := hmem
  inImage := himage
  regZero := by simp [State.resetOf]
  causeLegal := .inl ⟨rfl, rfl⟩

end

/-- Settles O58: the empty image boots to a reset in any configuration; in the reference configuration MEM_END is
0x00404000. -/
theorem resetIsTheEmptyBoot : Obligations.ResetIsTheEmptyBoot :=
  ⟨boot_nil _ _ _, rfl, State.resetOf_readReg_29 Config.reference _ _ _, rfl, rfl⟩

/-- Settles O52: the reference parameters are legal, and with the empty image nothing is stored. -/
theorem resetHasInv : Obligations.ResetHasInv :=
  resetOf_inv HostFlags.off [] (cfg := Config.reference) (mem := []) (by decide) (by decide)
    (fun _ hmem => absurd hmem List.not_mem_nil)

/-! ### The operations that end a step keep the invariant -/

section
variable {s t : State}

/-- The invariant looks at the configuration, the memory, the registers, and how the run stands. -/
theorem Inv.congr (h : Inv s) (hcfg : t.cfg = s.cfg) (hmem : t.mem = s.mem) (hregs : t.regs = s.regs)
    (hcause : CauseLegal t) : Inv t where
  cfgWf := hcfg ▸ h.cfgWf
  memWf := hmem ▸ h.memWf
  inImage := InImage_congr hmem hcfg h.inImage
  regZero := hregs ▸ h.regZero
  causeLegal := hcause

theorem CauseLegal.cause_of_running (h : CauseLegal s) (hr : s.run = .running) : s.cause = none := by
  rcases h with ⟨_, hc⟩ | ⟨ht, _⟩
  · exact hc
  · rw [hr] at ht; cases ht

/-- The host's turn leaves what the invariant speaks of as it is. -/
theorem Inv.proceed (h : Inv s) (hr : s.run = .running) (ht : s.hostTurn = .proceed t) : Inv t := by
  obtain ⟨hregs, -, hmem, hrun, hcause, hcfg, -, -⟩ := proceed_core ht
  exact h.congr hcfg hmem hregs (.inl ⟨hrun.trans hr, hcause.trans (h.causeLegal.cause_of_running hr)⟩)

/-- A termination keeps the invariant when its cause records the pc (R120, R130). -/
theorem Inv.terminate {c : Cause} (h : Inv s) (hc : c.pc? = some s.pc) : Inv (s.terminate c) :=
  h.congr rfl rfl rfl (.inr ⟨rfl, c, rfl, hc⟩)

/-- The end of the data region is a multiple of 4, so a valid address has its whole word in the image. -/
theorem ValidData.word_inImage {c : Config} {ea : Word} (hc : c.Wf) (h : ValidData c ea) :
    c.instrBase.toNat ≤ ea.toNat ∧ ea.toNat + 4 ≤ c.memEnd := by
  obtain ⟨hbase, -, -, -⟩ := hc
  obtain ⟨hlo, hhi, halign⟩ := h
  simp only [Config.memEnd, Config.dataEnd, Config.dataBase] at *
  omega

theorem storeBack_mem_wf {memW : Option (Word × Word)} (h : s.mem.wf) : (s.storeBack memW).mem.wf := by
  rcases memW with - | ⟨ea, v⟩
  · exact h
  · exact Memory.writeWord_wf _ _ _ h

/-- A store to a valid address stays inside the image (R35). -/
theorem storeBack_inImage {memW : Option (Word × Word)} (hc : s.cfg.Wf) (h : InImage s)
    (hw : ∀ ea v, memW = some (ea, v) → ValidData s.cfg ea) : InImage (s.storeBack memW) := by
  rcases memW with - | ⟨ea, v⟩
  · exact h
  · intro c hmem
    obtain ⟨hlo, hhi⟩ := (hw ea v rfl).word_inImage hc
    rcases Memory.mem_writeWord _ _ _ _ hmem with ⟨hge, hlt⟩ | hold
    · exact ⟨hlo.trans hge, hlt.trans_le hhi⟩
    · exact h c hold

/-- A register write that names no register 0 leaves its storage (R19). -/
theorem writeBack_regZero {regW : Option (RegIndex × Word)} (hw : ∀ r v, regW = some (r, v) → r ≠ 0) :
    (s.writeBack regW).regs[0] = s.regs[0] := by
  rcases regW with - | ⟨r, v⟩
  · rfl
  · have hr : r ≠ 0 := hw r v rfl
    have hne : (r : ℕ) ≠ 0 := fun h0 => hr (Fin.ext h0)
    rw [State.writeBack_some, State.writeReg_regs s r v hr]
    exact Vector.getElem_set_ne _ _ hne

/-- A commit keeps the invariant when it writes no register 0 and stores to no invalid address. -/
theorem Inv.commit {regW : Option (RegIndex × Word)} {memW : Option (Word × Word)} {npc : Word} (h : Inv s)
    (hr : s.run = .running) (hreg : ∀ r v, regW = some (r, v) → r ≠ 0)
    (hmem : ∀ ea v, memW = some (ea, v) → ValidData s.cfg ea) : Inv (s.commit regW memW npc) where
  cfgWf := by rw [State.commit_cfg]; exact h.cfgWf
  memWf := by rw [State.commit_mem]; exact storeBack_mem_wf h.memWf
  inImage := InImage_congr (by simp) (by simp) (storeBack_inImage h.cfgWf h.inImage hmem)
  regZero := by simp only [State.commit_regs, writeBack_regZero hreg, h.regZero]
  causeLegal := .inl ⟨by simp [hr], by simp [h.causeLegal.cause_of_running hr]⟩

/-- Every end of an instruction keeps the invariant. -/
theorem Inv.instrEnd {i : Instr} (h : Inv s) (hr : s.run = .running) (he : InstrEnd i s t) : Inv t := by
  cases he with
  | completes regW npc hreg => exact h.commit hr hreg (fun _ _ hnone => nomatch hnone)
  | stores rs rt imm16 hi ea v hea =>
    exact h.commit hr (fun _ _ hnone => nomatch hnone) (by rintro _ _ ⟨⟩; exact hea)
  | sentinelEnds | accessEnds => exact h.terminate rfl

end

/-- Settles O51: the host's turn keeps the invariant, and then so does each end of the step: every termination records
the pc, and every commit writes neither register 0 nor outside the data region. -/
theorem everyStepKeepsInv : Obligations.EveryStepKeepsInv := by
  intro s t h hstep
  obtain ⟨hr, hend⟩ := step_cases hstep
  cases hend with
  | quits => exact (h.congr rfl rfl rfl h.causeLegal : Inv s.takeLine).terminate rfl
  | fetchEnds u c hu hc => exact (h.proceed hr hu).terminate (fetchDecode_error_pc hc)
  | runs u _ i hu _ _ he =>
    obtain ⟨-, -, -, hrun, -⟩ := proceed_core hu
    exact (h.proceed hr hu).instrEnd (hrun.trans hr) he

end Sys2Proof.Machine
end

section
/-!
The pc's alignment (spec 10_state.md R25): every way an instruction other than jr sets the pc gives a multiple of 4
from a multiple of 4.
-/

namespace Sys2Proof.Machine

/-! ### The targets are multiples of 4 -/

/-- 4 divides 2^32, so the wrap of an addition keeps multiples of 4 (R26). -/
theorem add_toNat_mod_four {a b : Word} (ha : a.toNat % 4 = 0) (hb : b.toNat % 4 = 0) : (a + b).toNat % 4 = 0 := by
  rw [BitVec.toNat_add]
  omega

theorem branchOffset_toNat_mod_four (imm16 : BitVec 16) : (branchOffset imm16).toNat % 4 = 0 := by
  rw [branchOffset, BitVec.toNat_shiftLeft, Nat.shiftLeft_eq]
  omega

theorem jumpTarget_toNat_mod_four (pc : Word) (target26 : BitVec 26) : (jumpTarget pc target26).toNat % 4 = 0 := by
  rw [jumpTarget_eq, BitVec.toNat_append, Nat.shiftLeft_eq, BitVec.toNat_zero, Nat.or_zero]
  exact Nat.mul_mod_left _ 4

section
variable {s t : State}

theorem nextPc_toNat_mod_four (h : s.pc.toNat % 4 = 0) : s.nextPc.toNat % 4 = 0 := add_toNat_mod_four h rfl

/-! ### Instructions -/

theorem finishReg_pc {rd : RegIndex} {v : Word} (h : s.finishReg rd v = .next t) : t.pc = s.nextPc := by
  cases h
  exact State.commit_pc _ _ _ _

theorem finishJump_pc {npc : Word} (h : s.finishJump npc = .next t) : t.pc = npc := by
  cases h
  exact State.commit_pc _ _ _ _

/-- A load or a store goes on in sequence, or terminates at its own pc. -/
theorem exec_lw_pc {rs rt : RegIndex} {imm16 : BitVec 16} (h : exec (.lw rs rt imm16) s = .next t) :
    t.pc = s.nextPc ∨ t.pc = s.pc := by
  by_cases ha : ValidData s.cfg (effectiveAddress (s.readReg rs) imm16)
  · exact .inl (finishReg_pc ((exec_lw_valid ha).symm.trans h))
  · rw [exec_lw_invalid ha] at h
    cases h
    exact .inr rfl

theorem exec_sw_pc {rs rt : RegIndex} {imm16 : BitVec 16} (h : exec (.sw rs rt imm16) s = .next t) :
    t.pc = s.nextPc ∨ t.pc = s.pc := by
  by_cases ha : ValidData s.cfg (effectiveAddress (s.readReg rs) imm16)
  · rw [exec_sw_valid ha] at h
    cases h
    exact .inl (State.commit_pc _ _ _ _)
  · rw [exec_sw_invalid ha] at h
    cases h
    exact .inr rfl

/-- From an aligned pc, every instruction but jr leaves an aligned pc. -/
theorem exec_pc_toNat_mod_four {i : Instr} (hi : ∀ rs rt rd shamt, i ≠ .jr rs rt rd shamt) (hpc : s.pc.toNat % 4 = 0)
    (h : exec i s = .next t) : t.pc.toNat % 4 = 0 := by
  have hnext : s.nextPc.toNat % 4 = 0 := nextPc_toNat_mod_four hpc
  cases i with
  | jr rs rt rd shamt => exact absurd rfl (hi rs rt rd shamt)
  | sentinel => cases h; exact hpc
  | sll | srl | addu | subu | and | or | slt | addiu | andi | ori | lui => rw [finishReg_pc h]; exact hnext
  | j target26 => rw [finishJump_pc h]; exact jumpTarget_toNat_mod_four _ _
  | jal target26 => cases h; rw [State.commit_pc]; exact jumpTarget_toNat_mod_four _ _
  | beq rs rt imm16 =>
    rw [finishJump_pc h]
    refine add_toNat_mod_four hnext ?_
    split
    · exact branchOffset_toNat_mod_four imm16
    · rfl
  | bne rs rt imm16 =>
    rw [finishJump_pc h]
    refine add_toNat_mod_four hnext ?_
    split
    · rfl
    · exact branchOffset_toNat_mod_four imm16
  | lw => rcases exec_lw_pc h with hp | hp <;> rw [hp] <;> assumption
  | sw => rcases exec_sw_pc h with hp | hp <;> rw [hp] <;> assumption

/-- What fetch and decode answer is what the word at the pc decodes to. -/
theorem fetchDecode_ok {i : Instr} (h : s.fetchDecode = .ok i) : decode s.fetchedWord = .ok i := by
  rcases fetchDecode_cases s with ⟨_, h'⟩ | ⟨_, e, _, h'⟩ | ⟨_, j, hj, h'⟩ <;> rw [h'] at h <;> cases h
  exact hj

end

/-- Settles O37: a termination leaves the pc, the host's turn leaves the pc and the word at it, and only jr sets the pc
to something other than a sum or a target of multiples of 4. -/
theorem onlyJrMisalignsThePc : Obligations.OnlyJrMisalignsThePc := by
  intro s t hstep hpc hjr
  obtain ⟨-, hend⟩ := step_cases hstep
  cases hend with
  | quits => exact hpc
  | fetchEnds u c hu hc =>
    obtain ⟨-, hupc, -⟩ := proceed_core hu
    rw [State.terminate_pc, hupc]
    exact hpc
  | runs u _ i hu hi hexec _ =>
    obtain ⟨-, hupc, humem, -⟩ := proceed_core hu
    have hword : u.fetchedWord = s.fetchedWord := by rw [State.fetchedWord, humem, hupc, State.fetchedWord]
    have hdecode : decode s.fetchedWord = .ok i := hword ▸ fetchDecode_ok hi
    exact exec_pc_toNat_mod_four (fun rs rt rd shamt h => hjr rs rt rd shamt (h ▸ hdecode)) (hupc ▸ hpc) hexec

end Sys2Proof.Machine
end

section
/-!
Code cannot be modified (spec 20_memory.md R39, R52): one relation between two states says that the bytes below the data
region are kept, every operation that ends a step gives it, and it composes along a run.
-/

namespace Sys2Proof.Machine

/-- From `s` to `t` the bytes below the data region are kept. The address map and the canonical form of memory are kept
with them, so that the relation composes. -/
structure CodeKept (s t : State) : Prop where
  /-- The address map is the same. -/
  cfg : t.cfg = s.cfg
  /-- Memory is in canonical form. -/
  memWf : t.mem.wf
  /-- Every byte below DATA_BASE reads as before. -/
  below : ∀ a < s.cfg.dataBase, t.mem.readByte a = s.mem.readByte a

section
variable {s t u : State}

theorem CodeKept.of_mem_eq (hm : s.mem.wf) (hmem : t.mem = s.mem) (hcfg : t.cfg = s.cfg) : CodeKept s t where
  cfg := hcfg
  memWf := hmem ▸ hm
  below a _ := SameMemory_of_mem_eq hmem a

theorem CodeKept.trans (hst : CodeKept s t) (htu : CodeKept t u) : CodeKept s u where
  cfg := htu.cfg.trans hst.cfg
  memWf := htu.memWf
  below a ha := (htu.below a (hst.cfg ▸ ha)).trans (hst.below a ha)

/-- A valid address is at or above DATA_BASE, so the four bytes stored there are too (R40). -/
theorem CodeKept.commit_store {ea v npc : Word} (hm : s.mem.wf) (hea : ValidData s.cfg ea) :
    CodeKept s (s.commit none (some (ea, v)) npc) where
  cfg := State.commit_cfg _ _ _ _
  memWf := by rw [State.commit_mem]; exact storeBack_mem_wf hm
  below a ha := by
    obtain ⟨-, hout, -⟩ := commit_storesWord s hm ea v npc
    exact hout a (.inl (ha.trans_le hea.1))

/-- Only a store touches memory, and it is to a valid address. -/
theorem InstrEnd.codeKept {i : Instr} (hm : s.mem.wf) (he : InstrEnd i s t) : CodeKept s t := by
  cases he with
  | completes regW npc _ => exact .of_mem_eq hm (State.commit_mem _ _ _ _) (State.commit_cfg _ _ _ _)
  | stores rs rt imm16 _ ea v hea => exact .commit_store hm hea
  | sentinelEnds | accessEnds => exact .of_mem_eq hm rfl rfl

theorem proceed_codeKept (hm : s.mem.wf) (h : s.hostTurn = .proceed t) : CodeKept s t := by
  obtain ⟨-, -, hmem, -, -, hcfg, -⟩ := proceed_core h
  exact .of_mem_eq hm hmem hcfg

theorem step_codeKept (hm : s.mem.wf) (h : step s = .next t) : CodeKept s t := by
  obtain ⟨-, hend⟩ := step_cases h
  cases hend with
  | quits => exact .of_mem_eq hm rfl rfl
  | fetchEnds u c hu _ =>
    have hkept : CodeKept s u := proceed_codeKept hm hu
    exact hkept.trans (.of_mem_eq hkept.memWf rfl rfl)
  | runs u _ i hu _ _ he =>
    have hkept : CodeKept s u := proceed_codeKept hm hu
    exact hkept.trans (he.codeKept hkept.memWf)

theorem run_codeKept {k : Nat} (hm : s.mem.wf) (h : Host.Core.run Sys2Proof.core k s = .next t) : CodeKept s t := by
  induction k generalizing s with
  | zero => cases h; exact .of_mem_eq hm rfl rfl
  | succ k ih =>
    obtain ⟨u, hstep, hrun⟩ := run_succ h
    have hkept : CodeKept s u := step_codeKept hm hstep
    exact hkept.trans (ih hkept.memWf hrun)

end

/-- Settles O54: every step keeps the code and the canonical memory the next step needs. -/
theorem instructionRegionNeverChanges : Obligations.InstructionRegionNeverChanges :=
  fun _ _ _ hm hrun => (run_codeKept hm hrun).below

end Sys2Proof.Machine
end

section
/-!
What a stored word reads back as: by a load, by a fetch and byte for byte (spec 20_memory.md R43, R44, R52), and the
two readings of the address bounds (R41).
-/

namespace Sys2Proof.Machine

/-! ### The four bytes of a word -/

/-- Byte `k` of a written word, the high byte at the lowest address (R43). -/
theorem Memory.readByte_writeWord_same (m : Memory) (hm : m.wf) (a : Nat) (v : Word) {k : Nat} (hk : k < 4) :
    (m.writeWord a v).readByte (a + k) = v.extractLsb' (8 * (3 - k)) 8 := by
  have h0 := Memory.writeByte_wf m a (v.extractLsb' 24 8) hm
  have h1 := Memory.writeByte_wf _ (a + 1) (v.extractLsb' 16 8) h0
  have h2 := Memory.writeByte_wf _ (a + 2) (v.extractLsb' 8 8) h1
  unfold Memory.writeWord
  simp only [Memory.readByte_writeByte _ h2, Memory.readByte_writeByte _ h1, Memory.readByte_writeByte _ h0,
    Memory.readByte_writeByte _ hm]
  interval_cases k <;> simp

/-! ### Loads and stores at a valid address -/

theorem effectiveAddress_eq (base : Word) (imm16 : BitVec 16) :
    effectiveAddress base imm16 = base + imm16.signExtend 32 := by
  rw [effectiveAddress, signExtend32_eq]

section
variable {s : State} {rs rt : RegIndex} {imm16 : BitVec 16} {ea : Word}

theorem exec_sw_at (hea : ea = s.readReg rs + imm16.signExtend 32) (hv : ValidData s.cfg ea) :
    exec (.sw rs rt imm16) s = .next (s.commit none (some (ea, s.readReg rt)) s.nextPc) := by
  rw [← effectiveAddress_eq] at hea
  subst hea
  exact exec_sw_valid hv

theorem exec_lw_at (hea : ea = s.readReg rs + imm16.signExtend 32) (hv : ValidData s.cfg ea) :
    exec (.lw rs rt imm16) s = s.finishReg rt (s.mem.readWord ea.toNat) := by
  rw [← effectiveAddress_eq] at hea
  subst hea
  exact exec_lw_valid hv

/-- The data region is part of the image, so it can be fetched from (R39, R46). -/
theorem ValidData.fetchOk {c : Config} (h : ValidData c ea) : FetchOk c ea := by
  obtain ⟨hlo, hhi, halign⟩ := h
  exact ⟨halign, (Nat.le_add_right _ _).trans hlo, hhi⟩

theorem fetchDecode_of_decode {i : Instr} (hpc : FetchOk s.cfg s.pc) (hi : decode s.fetchedWord = .ok i) :
    s.fetchDecode = .ok i := by
  rw [State.fetchDecode, if_pos hpc, hi]

end

/-- Settles O28: the store leaves the registers and the configuration, so the load meets the same valid address, and
the word there is the one stored. -/
theorem loadReturnsTheStoredWord : Obligations.LoadReturnsTheStoredWord := by
  intro rs rt rs' rd imm imm' s ea hm hea hv hea'
  obtain ⟨hword, -, hregs, -, ⟨-, -, hcfg, -⟩, hstore⟩ := commit_storesWord s hm ea (s.readReg rt) s.nextPc
  obtain ⟨u, hu, hrd, -, -, -, -, hload⟩ := finishReg_spec (s.commit none (some (ea, s.readReg rt)) s.nextPc) rd
    (s.readReg rt)
  refine ⟨_, u, exec_sw_at hea hv, ?_, hrd, hstore, hload⟩
  rw [exec_lw_at (ea := ea) (by rw [hregs, hea']) (hcfg ▸ hv), hword]
  exact hu

/-- Settles O29: the stored word is the one fetched from its address, and every valid address is fetchable. -/
theorem fetchSeesTheStoredWord : Obligations.FetchSeesTheStoredWord := by
  intro rs rt imm16 s ea i hm hea hv hi
  obtain ⟨hword, -, -, -, ⟨-, -, hcfg, -⟩, -⟩ := commit_storesWord s hm ea (s.readReg rt) s.nextPc
  have hfetch : FetchOk (s.commit none (some (ea, s.readReg rt)) s.nextPc).cfg ea := hcfg ▸ hv.fetchOk
  refine ⟨_, exec_sw_at hea hv, hfetch, fetchDecode_of_decode hfetch ?_⟩
  rw [State.fetchedWord, State.setPc_pc, State.setPc_mem, hword, hi]

/-- Settles O30: the commit's memory is the old one with the word written at the address. -/
theorem storedBytesAreBigEndian : Obligations.StoredBytesAreBigEndian := by
  intro rs rt imm16 s ea hm hea hv
  refine ⟨_, exec_sw_at hea hv, fun k hk => ?_⟩
  rw [State.commit_mem, State.storeBack_some, State.storeWord_mem]
  exact Memory.readByte_writeWord_same s.mem hm _ _ hk

/-! ### The decoder on a word laid out in bytes -/

theorem decodeBytes_bytesOfWord (w : Word) :
    decodeBytes (bytesOfWord w) = ((decode w).map fun i => (i, [])).mapError .rejected := by
  rw [bytesOfWord, decodeBytes, wordOfBytes_bytes]
  cases decode w <;> rfl

/-- Settles O5: the word's number loses nothing modulo 2^32, and its bytes put together again are the word. -/
theorem tableWordDecodesAsWord : Obligations.TableWordDecodesAsWord := by
  intro w
  have hw : BitVec.ofNat 32 (w.toNat % 2 ^ 32) = w := by
    rw [Nat.mod_eq_of_lt w.isLt, BitVec.ofNat_toNat, BitVec.setWidth_eq]
  rw [decodeTableWord, hw, decodeBytes_bytesOfWord]
  cases decode w <;> rfl

/-! ### The address bounds, signed and unsigned -/

/-- Settles O31: where the image ends by 2^31, an address below its end has the sign bit clear and reads the same both
ways; an address with the sign bit set is above the end unsigned and below 0 signed. -/
theorem signedBoundsAgree : Obligations.SignedBoundsAgree := by
  intro c ea hend
  have hlt := ea.isLt
  have hsigned : ea.toInt = if 2 * ea.toNat < 2 ^ 32 then (ea.toNat : Int) else ea.toNat - 2 ^ 32 :=
    BitVec.toInt_eq_toNat_cond ea
  simp only [ValidData, Config.memEnd] at *
  split at hsigned <;> omega

end Sys2Proof.Machine
end

section
/-!
The decoder and the encoder are inverse (spec 30_encoding.md R55 to R57, R62 to R69), the two extended operand forms
(R58, R61), and the sentinel as the one way a program finishes (R65, R132).
-/

namespace Sys2Proof.Machine

/-! ### Decoding an encoded instruction -/

/-- The lemmas of Laws/PerInstr.lean put together: no well-formed instruction but the sentinel has its word. -/
theorem encode_ne_zero : ∀ i : Instr, Laws.EncodeNonzero.Statement i
  | .sentinel => Laws.EncodeNonzero.sentinel
  | .sll .. => Laws.EncodeNonzero.sll _ _ _ _
  | .srl .. => Laws.EncodeNonzero.srl _ _ _ _
  | .jr .. => Laws.EncodeNonzero.jr _ _ _ _
  | .addu .. => Laws.EncodeNonzero.addu _ _ _ _
  | .subu .. => Laws.EncodeNonzero.subu _ _ _ _
  | .and .. => Laws.EncodeNonzero.and _ _ _ _
  | .or .. => Laws.EncodeNonzero.or _ _ _ _
  | .slt .. => Laws.EncodeNonzero.slt _ _ _ _
  | .j _ => Laws.EncodeNonzero.j _
  | .jal _ => Laws.EncodeNonzero.jal _
  | .beq .. => Laws.EncodeNonzero.beq _ _ _
  | .bne .. => Laws.EncodeNonzero.bne _ _ _
  | .addiu .. => Laws.EncodeNonzero.addiu _ _ _
  | .andi .. => Laws.EncodeNonzero.andi _ _ _
  | .ori .. => Laws.EncodeNonzero.ori _ _ _
  | .lui .. => Laws.EncodeNonzero.lui _ _ _
  | .lw .. => Laws.EncodeNonzero.lw _ _ _
  | .sw .. => Laws.EncodeNonzero.sw _ _ _

/-- Off the all-zero word the maps of R62 and R63 send the encoder's opcode and funct back to the instruction. -/
theorem decode_encode_of_ne_zero {i : Instr} (h : encode i ≠ 0#32) : decode (encode i) = .ok i := by
  cases i with
  | sentinel => exact absurd rfl h
  | sll | srl | jr | addu | subu | and | or | slt =>
    rw [decode_of_opcode_zero _ h (opcodeField_encodeR ..)]
    simp [encode, decodeR]
  | j | jal | beq | bne | addiu | andi | ori | lui | lw | sw =>
    rw [decode, if_neg h]
    simp [encode]

/-- Settles O1: the sentinel's word is tested first, and every other well-formed instruction has another word. -/
theorem decodeOfEncodeIsIdentity : Obligations.DecodeOfEncodeIsIdentity := by
  intro i hwf
  by_cases hi : i = .sentinel
  · subst hi
    exact decode_zero
  · exact decode_encode_of_ne_zero (encode_ne_zero i hwf hi)

/-- Settles O4: each word is the encoding of the instruction it stands for. -/
theorem sampleWordsDecode : Obligations.SampleWordsDecode :=
  ⟨decodeOfEncodeIsIdentity (.addu 1 2 3 0) rfl, decodeOfEncodeIsIdentity (.srl 0 4 5 28) rfl,
    decodeOfEncodeIsIdentity (.addiu 8 8 0xFFFF#16) rfl, decodeOfEncodeIsIdentity (.jal 0x100004#26) rfl,
    decodeOfEncodeIsIdentity (.or 0 0 0 0) rfl, decodeOfEncodeIsIdentity (.lw 8 10 4) rfl,
    decodeOfEncodeIsIdentity (.bne 8 0 0xFFFD#16) rfl, decodeOfEncodeIsIdentity .sentinel rfl⟩

/-! ### The decoder's verdict on a word -/

/-- What the decoder can answer for a word: the four verdicts of R64 to R69, each with the words it is given for. -/
inductive Verdict (w : Word) : Except DecodeError Instr → Prop where
  /-- The all-zero word (R65). -/
  | sentinel (hw : w = 0#32) : Verdict w (.ok .sentinel)
  /-- An opcode outside the map (R66). -/
  | illegalOpcode (hop : (opcodeField w).toNat ∉ legalOpcodes) : Verdict w (.error .illegalOpcode)
  /-- Opcode 0, not the sentinel, a funct outside the map (R67). -/
  | illegalFunct (hw : w ≠ 0#32) (hop : opcodeField w = 0#6) (hf : (functField w).toNat ∉ legalFuncts) :
      Verdict w (.error .illegalFunct)
  /-- A legal opcode and, with opcode 0, a legal funct: the instruction whose word this is (R62, R63). -/
  | instr (i : Instr) (hw : w ≠ 0#32) (hop : (opcodeField w).toNat ∈ legalOpcodes)
      (hf : opcodeField w = 0#6 → (functField w).toNat ∈ legalFuncts) (henc : encode i = w) : Verdict w (.ok i)

section
variable {w : Word} {i : Instr}

/-- A row of the funct map, for a word of the R format. -/
theorem Verdict.ofR (funct : BitVec 6) (hf : (functField w).toNat = funct.toNat) (hw : w ≠ 0#32)
    (hop : opcodeField w = 0#6) (hlegal : funct.toNat ∈ legalFuncts)
    (hi : encode i = encodeR funct (rsField w) (rtField w) (rdField w) (shamtField w)) : Verdict w (.ok i) := by
  obtain rfl : functField w = funct := BitVec.eq_of_toNat_eq hf
  exact .instr i hw (by rw [hop]; decide) (fun _ => hlegal) (hi.trans (encodeR_fields w hop))

/-- A row of the opcode map other than opcode 0. -/
theorem Verdict.ofOpcode (op : BitVec 6) (hop : (opcodeField w).toNat = op.toNat) (hw : w ≠ 0#32)
    (hlegal : op.toNat ∈ legalOpcodes) (hop0 : op ≠ 0#6) (henc : opcodeField w = op → encode i = w) :
    Verdict w (.ok i) := by
  obtain rfl : opcodeField w = op := BitVec.eq_of_toNat_eq hop
  exact .instr i hw hlegal (fun h0 => absurd h0 hop0) (henc rfl)

theorem decodeR_verdict (hw : w ≠ 0#32) (hop : opcodeField w = 0#6) : Verdict w (decodeR w) := by
  unfold decodeR
  split
  case h_1 hf => exact .ofR 0#6 hf hw hop (by decide) rfl
  case h_2 hf => exact .ofR 2#6 hf hw hop (by decide) rfl
  case h_3 hf => exact .ofR 8#6 hf hw hop (by decide) rfl
  case h_4 hf => exact .ofR 33#6 hf hw hop (by decide) rfl
  case h_5 hf => exact .ofR 35#6 hf hw hop (by decide) rfl
  case h_6 hf => exact .ofR 36#6 hf hw hop (by decide) rfl
  case h_7 hf => exact .ofR 37#6 hf hw hop (by decide) rfl
  case h_8 hf => exact .ofR 42#6 hf hw hop (by decide) rfl
  case h_9 => exact .illegalFunct hw hop (by simp_all [legalFuncts])

theorem decode_verdict (w : Word) : Verdict w (decode w) := by
  unfold decode
  split
  case isTrue hw => exact .sentinel hw
  case isFalse hw =>
    split
    case h_1 hop => exact decodeR_verdict hw (BitVec.eq_of_toNat_eq hop)
    case h_2 hop => exact .ofOpcode 2#6 hop hw (by decide) (by decide) (encodeJ_fields w _)
    case h_3 hop => exact .ofOpcode 3#6 hop hw (by decide) (by decide) (encodeJ_fields w _)
    case h_4 hop => exact .ofOpcode 4#6 hop hw (by decide) (by decide) (encodeI_fields w _)
    case h_5 hop => exact .ofOpcode 5#6 hop hw (by decide) (by decide) (encodeI_fields w _)
    case h_6 hop => exact .ofOpcode 9#6 hop hw (by decide) (by decide) (encodeI_fields w _)
    case h_7 hop => exact .ofOpcode 12#6 hop hw (by decide) (by decide) (encodeI_fields w _)
    case h_8 hop => exact .ofOpcode 13#6 hop hw (by decide) (by decide) (encodeI_fields w _)
    case h_9 hop => exact .ofOpcode 15#6 hop hw (by decide) (by decide) (encodeI_fields w _)
    case h_10 hop => exact .ofOpcode 35#6 hop hw (by decide) (by decide) (encodeI_fields w _)
    case h_11 hop => exact .ofOpcode 43#6 hop hw (by decide) (by decide) (encodeI_fields w _)
    case h_12 => exact .illegalOpcode (by simp_all [legalOpcodes])

/-- An instruction is ill-formed only as the `sll` whose word is zero (R64). -/
theorem wellFormed_of_encode_ne_zero (h : encode i ≠ 0#32) : i.WellFormed := by
  cases i with
  | sll rs rt rd shamt =>
    by_contra hwf
    obtain ⟨⟨⟨rfl, rfl⟩, rfl⟩, rfl⟩ : ((rs = 0 ∧ rt = 0) ∧ rd = 0) ∧ shamt = 0 := by
      simpa [Instr.WellFormed, Instr.wellFormed] using hwf
    exact h rfl
  | _ => rfl

end

/-- Settles O2: the sentinel's word is zero, and every other verdict that is an instruction holds its encoding. -/
theorem encodeOfDecodeIsIdentity : Obligations.EncodeOfDecodeIsIdentity := by
  intro w i hi
  have hv := decode_verdict w
  rw [hi] at hv
  cases hv with
  | sentinel hw => exact ⟨hw.symm, rfl⟩
  | instr _ hw _ _ henc => exact ⟨henc, wellFormed_of_encode_ne_zero (henc ▸ hw)⟩

/-! ### Which words each verdict is given for -/

section
variable {w : Word} {d : Except DecodeError Instr}

theorem opcode_ne_zero_of_illegal (h : (opcodeField w).toNat ∉ legalOpcodes) : opcodeField w ≠ 0#6 := by
  intro hop
  rw [hop] at h
  exact h (by decide)

/-- The sentinel's own opcode is legal. -/
theorem ne_zero_of_illegal (h : (opcodeField w).toNat ∉ legalOpcodes) : w ≠ 0#32 :=
  ne_zero_of_opcode w (opcode_ne_zero_of_illegal h)

theorem ne_sentinel_of_encode {i : Instr} (hw : w ≠ 0#32) (henc : encode i = w) : i ≠ .sentinel := by
  rintro rfl
  exact hw henc.symm

theorem Verdict.eq_sentinel_iff (h : Verdict w d) : d = .ok .sentinel ↔ w = 0#32 := by
  cases h with
  | sentinel hw => simp [hw]
  | illegalOpcode hop => simp [ne_zero_of_illegal hop]
  | illegalFunct hw => simp [hw]
  | instr i hw _ _ henc => simp [hw, ne_sentinel_of_encode hw henc]

theorem Verdict.eq_illegalOpcode_iff (h : Verdict w d) :
    d = .error .illegalOpcode ↔ (opcodeField w).toNat ∉ legalOpcodes := by
  cases h with
  | sentinel hw => simpa using (fun hop => ne_zero_of_illegal hop hw)
  | illegalOpcode hop => simp [hop]
  | illegalFunct _ hop => simpa using (fun hill => opcode_ne_zero_of_illegal hill hop)
  | instr i _ hop => simp [hop]

theorem Verdict.eq_illegalFunct_iff (h : Verdict w d) :
    d = .error .illegalFunct ↔ w ≠ 0#32 ∧ opcodeField w = 0#6 ∧ (functField w).toNat ∉ legalFuncts := by
  cases h with
  | sentinel hw => simp [hw]
  | illegalOpcode hop => simp [opcode_ne_zero_of_illegal hop]
  | illegalFunct hw hop hf => simp [hw, hop, hf]
  | instr i _ _ hf => simpa using (fun _ hop => hf hop)

theorem Verdict.isInstr_iff (h : Verdict w d) :
    (∃ i, d = .ok i ∧ i ≠ .sentinel) ↔ w ≠ 0#32 ∧ (opcodeField w).toNat ∈ legalOpcodes ∧
      (opcodeField w = 0#6 → (functField w).toNat ∈ legalFuncts) := by
  cases h with
  | sentinel hw => simp [hw]
  | illegalOpcode hop => simp [hop]
  | illegalFunct _ hop hf => simp [hop, hf]
  | instr i hw hop hf henc => exact ⟨fun _ => ⟨hw, hop, hf⟩, fun _ => ⟨i, rfl, ne_sentinel_of_encode hw henc⟩⟩

end

/-- Settles O3: the verdict the decoder gives is the one its word is given for. -/
theorem everyWordHasOneVerdict : Obligations.EveryWordHasOneVerdict :=
  fun w =>
    have hv := decode_verdict w
    ⟨hv.eq_sentinel_iff, hv.eq_illegalOpcode_iff, hv.eq_illegalFunct_iff, hv.isInstr_iff⟩

/-! ### How a program finishes -/

section
variable {s t u : State} {i : Instr}

theorem terminate_finished_iff {c : Cause} : Finished (s.terminate c) ↔ ∃ pc, c = .sentinel pc := by
  simp [Finished]

/-- Every other instruction commits, which keeps the machine running, or terminates with another cause. -/
theorem exec_finished_iff (hr : s.run = .running) (h : exec i s = .next t) : Finished t ↔ i = .sentinel := by
  constructor
  · rintro ⟨hrun, pc, hcause⟩
    obtain ⟨_, hexec, hend⟩ := exec_end i s
    cases h.symm.trans hexec
    cases hend with
    | sentinelEnds hi => exact hi
    | completes | stores => simp [hr] at hrun
    | accessEnds => simp at hcause
  · rintro rfl
    cases h
    exact terminate_finished_iff.2 ⟨_, rfl⟩

theorem fetchDecode_eq_sentinel_iff : s.fetchDecode = .ok .sentinel ↔ FetchOk s.cfg s.pc ∧ s.fetchedWord = 0#32 := by
  constructor
  · intro h
    have hdecode := fetchDecode_ok h
    rcases fetchDecode_cases s with ⟨_, h'⟩ | ⟨_, _, _, h'⟩ | ⟨hpc, _⟩
    · cases h.symm.trans h'
    · cases h.symm.trans h'
    · exact ⟨hpc, (decode_verdict _).eq_sentinel_iff.1 hdecode⟩
  · rintro ⟨hpc, hw⟩
    exact fetchDecode_of_decode hpc (hw ▸ decode_zero)

theorem fetchDecode_error_ne_sentinel {c : Cause} (h : s.fetchDecode = .error c) (pc : Word) : c ≠ .sentinel pc := by
  rintro rfl
  rcases fetchDecode_cases s with ⟨_, h'⟩ | ⟨_, e, _, h'⟩ | ⟨_, _, _, h'⟩
  · cases h.symm.trans h'
  · cases e <;> cases h.symm.trans h'
  · cases h.symm.trans h'

/-- The host's turn has one outcome. -/
theorem runsCycle_iff_of_proceed (hr : s.run = .running) (ht : s.hostTurn = .proceed t) : RunsCycle s u ↔ u = t := by
  simp [RunsCycle, hr, ht, eq_comm]

end

/-- Settles O10: a host end and a fault end record another cause; a cycle that runs finishes where its instruction is
the sentinel, which is where the word fetched is zero. -/
theorem onlyTheSentinelFinishes : Obligations.OnlyTheSentinelFinishes := by
  intro s t hstep
  obtain ⟨hr, hend⟩ := step_cases hstep
  cases hend with
  | quits hq => simp [terminate_finished_iff, RunsCycle, hq]
  | fetchEnds u c hu hc =>
    have hne : u.fetchDecode ≠ .ok .sentinel := by simp [hc]
    simpa [terminate_finished_iff, runsCycle_iff_of_proceed hr hu, fetchDecode_error_ne_sentinel hc] using
      fetchDecode_eq_sentinel_iff.not.1 hne
  | runs u _ i hu hi hexec _ =>
    obtain ⟨-, -, -, hrun, -⟩ := proceed_core hu
    simp only [runsCycle_iff_of_proceed hr hu, exists_eq_left]
    calc Finished t ↔ i = .sentinel := exec_finished_iff (hrun.trans hr) hexec
      _ ↔ u.fetchDecode = .ok .sentinel := by simp [hi]
      _ ↔ FetchOk u.cfg u.pc ∧ u.fetchedWord = 0#32 := fetchDecode_eq_sentinel_iff

/-! ### Operands -/

/-- The two parts of a target do not overlap, so they add up. -/
theorem jumpTarget_toNat (pc : Word) (tgt : BitVec 26) :
    (jumpTarget pc tgt).toNat = 2 ^ 28 * (pc.toNat / 2 ^ 28) + 4 * tgt.toNat := by
  have hpc := pc.isLt
  rw [jumpTarget_eq, BitVec.toNat_append, BitVec.toNat_append, ← Nat.shiftLeft_add_eq_or_of_lt tgt.isLt,
    BitVec.extractLsb'_toNat, Nat.shiftRight_eq_div_pow, Nat.shiftLeft_eq, Nat.shiftLeft_eq, BitVec.toNat_zero,
    Nat.or_zero]
  omega

/-- Settles O6: the field is below 2^26, so it neither carries into the segment nor leaves the low 28 bits. -/
theorem jumpTargetKeepsSegment : Obligations.JumpTargetKeepsSegment := by
  intro pc tgt
  have htgt := tgt.isLt
  have hsum := jumpTarget_toNat pc tgt
  exact ⟨jumpTarget_toNat_mod_four pc tgt, by omega, by omega⟩

theorem signExtend32_toInt (imm16 : BitVec 16) : (signExtend32 imm16).toInt = imm16.toInt := by
  rw [signExtend32_eq, BitVec.toInt_signExtend_of_le (by decide)]

/-- Settles O20: sign extension keeps the signed value, and the two immediates have these. -/
theorem immediateKeepsItsSignedValue : Obligations.ImmediateKeepsItsSignedValue :=
  ⟨signExtend32_toInt, (signExtend32_toInt _).trans rfl, (signExtend32_toInt _).trans rfl⟩

end Sys2Proof.Machine
end

section
/-!
The cycle that is about to run (spec 40_pipeline.md R76, R94, R100): which line of the host's lets it run, and the
instruction that the step then is.
-/

namespace Sys2Proof.Machine

section
variable {s t : State}

/-! ### The instruction a step runs -/

/-- A cycle whose fetched word decodes is that instruction's effect (R94). -/
theorem step_of_decode {i : Instr} (h : RunsCycle s t) (hpc : FetchOk t.cfg t.pc) (hi : decode t.fetchedWord = .ok i) :
    step s = exec i t := by
  rw [step_of_runsCycle h, fetchDecode_of_decode hpc hi]

/-- Four bytes hold the instruction of the word they make, and nothing after it (R53). -/
theorem decode_of_decodeBytes {b0 b1 b2 b3 : Byte} {i : Instr} (h : decodeBytes [b0, b1, b2, b3] = .ok (i, [])) :
    decode (wordOfBytes b0 b1 b2 b3) = .ok i := by
  unfold decodeBytes at h
  cases hd : decode (wordOfBytes b0 b1 b2 b3) with
  | error e => simp [hd] at h
  | ok j => simpa [hd] using h

/-! ### The host's turn -/

/-- A line quits by its first character alone (R100, 90_conflicts.md C5). -/
theorem quits_eq_true_iff {l : HostLine} : quits l = true ↔ l.head? = some 'q' := by
  cases l <;> simp [quits]

theorem hostTurn_of_not_interactive (h : s.flags.interactive = false) : s.hostTurn = .proceed s := by
  simp [State.hostTurn, h]

theorem hostTurn_of_quit_line (h : s.flags.interactive = true) (hl : s.hostLine.head? = some 'q') :
    s.hostTurn = .quit s.takeLine := by
  simp [State.hostTurn, h, quits_eq_true_iff.2 hl]

theorem hostTurn_of_other_line (h : s.flags.interactive = true) (hl : s.hostLine.head? ≠ some 'q') :
    s.hostTurn = .proceed s.takeLine := by
  simp [State.hostTurn, h, mt quits_eq_true_iff.1 hl]

/-! ### The oldest supplied line, and the free line -/

theorem hostLine_of_cons {l : HostLine} {ls : List HostLine} (h : s.hostLines = l :: ls) : s.hostLine = l := by
  simp [State.hostLine, h]

theorem hostLine_of_nil (h : s.hostLines = []) : s.hostLine = Config.freeHostLine s.hostReads := by
  simp [State.hostLine, h]

/-- Reading a line where the lines after it are known. -/
theorem takeLine_of_tail {ls : List HostLine} (h : s.hostLines.tail = ls) :
    s.takeLine = { s with hostLines := ls, hostReads := s.hostReads + 1 } := by
  rw [State.takeLine, h]

/-- Where no line is supplied the queue stays as it is. -/
theorem takeLine_of_nil (h : s.hostLines = []) : s.takeLine = { s with hostReads := s.hostReads + 1 } := by
  rw [State.takeLine, h, List.tail_nil, ← h]

end

/-- Settles O38: the word of the four bytes at the pc is the word fetched. -/
theorem stepRunsTheDecodedInstruction : Obligations.StepRunsTheDecodedInstruction :=
  fun _ _ _ h hpc hbytes => step_of_decode h hpc (decode_of_decodeBytes hbytes)

/-- Settles O42: the host's turn reads no line without interactive mode, and the supplied line is the one it reads in
it. -/
theorem otherLinesLetTheCycleRun : Obligations.OtherLinesLetTheCycleRun := by
  refine ⟨fun s hr hi => ⟨hr, hostTurn_of_not_interactive hi⟩, fun s l ls hr hi hls hq => ⟨hr, ?_⟩⟩
  have hl : s.hostLine.head? ≠ some 'q' := hostLine_of_cons hls ▸ hq
  rw [hostTurn_of_other_line hi hl, takeLine_of_tail (ls := ls) (by rw [hls, List.tail_cons])]

/-- Settles O43: with no line supplied the line read is the free line, and it falls under one of the two turns. -/
theorem freeLineIsTheHostsChoice : Obligations.FreeLineIsTheHostsChoice := by
  intro s hr hi hnil
  rw [← hostLine_of_nil hnil, ← takeLine_of_nil hnil]
  split
  case isTrue hq => exact ⟨_, step_of_quit hr (hostTurn_of_quit_line hi hq), terminate_spec s.takeLine _⟩
  case isFalse hq => exact ⟨hr, hostTurn_of_other_line hi hq⟩

/-! ### A word placed where the next step fetches (log 11) -/

section
variable (s : State)

/-- The first word of the image can be fetched in every legal configuration (R7, R46). -/
theorem fetchOk_instrBase {c : Config} (h : c.Wf) : FetchOk c c.instrBase := by
  obtain ⟨halign, hinstr, -, -⟩ := h
  refine ⟨halign, le_rfl, ?_⟩
  simp only [Config.memEnd, Config.dataEnd, Config.dataBase]
  omega

theorem readyToFetch_fetchOk (h : s.cfg.Wf) : FetchOk s.cfg s.readyToFetch.pc := by
  unfold State.readyToFetch
  split
  case isTrue hpc => exact hpc
  case isFalse => exact fetchOk_instrBase h

/-- No bit of a 32-bit word is cut off when it is placed. -/
theorem withFetchWord_word (w : Word) :
    s.withFetchWord 32 w.toNat = s.readyToFetch.storeWord s.readyToFetch.pc w := by
  rw [State.withFetchWord_eq, Nat.mod_eq_of_lt w.isLt, BitVec.ofNat_toNat, BitVec.setWidth_eq]

/-- The line put before the others is empty, so the cycle runs in interactive mode too. -/
theorem withFetchWord_proceeds (nbits w : Nat) : ∃ t, (s.withFetchWord nbits w).hostTurn = .proceed t := by
  cases hi : s.flags.interactive with
  | false => exact ⟨_, hostTurn_of_not_interactive hi⟩
  | true =>
    have hlines : (s.withFetchWord nbits w).hostLines = [] :: s.hostLines := if_pos hi
    exact ⟨_, hostTurn_of_other_line hi (by simp [hostLine_of_cons hlines])⟩

end

/-- Settles O60: the host's turn leaves the placed word and the pc, and the pc is one that can be fetched from. -/
theorem placedWordRunsNext : Obligations.PlacedWordRunsNext := by
  intro s w i hcfg hm hi
  obtain ⟨t, ht⟩ := withFetchWord_proceeds s 32 w.toNat
  have hruns : RunsCycle (s.withFetchWord 32 w.toNat) t := ⟨rfl, ht⟩
  rw [withFetchWord_word] at ht
  obtain ⟨hregs, hpc, hmem, -, -, htcfg, -, -⟩ := proceed_core ht
  have hword : t.fetchedWord = w := by
    rw [State.fetchedWord, hmem, hpc]
    exact Memory.readWord_writeWord_same s.mem hm _ w
  have hfetch : FetchOk t.cfg t.pc := by
    rw [htcfg, hpc]
    exact readyToFetch_fetchOk s hcfg
  exact ⟨t, hruns, step_of_decode hruns hfetch (hword ▸ hi), hregs, htcfg, hword⟩

end Sys2Proof.Machine
end

section
/-!
What a step ends in (spec 40_pipeline.md R94 to R97): a termination of the state before it, or a commit that its one
report describes in full; and that neither looks at the print flags (R99).
-/

namespace Sys2Proof.Machine

/-! ### The two ends of a step -/

section
variable {s t u : State}

/-- The state a cycle starts from has the registers, memory, pc, cause, configuration, flags and emissions before it. -/
structure SameStart (s u : State) : Prop where
  regs : u.regs = s.regs
  pc : u.pc = s.pc
  mem : u.mem = s.mem
  cause : u.cause = s.cause
  cfg : u.cfg = s.cfg
  flags : u.flags = s.flags
  events : u.events = s.events

theorem SameStart.takeLine : SameStart s s.takeLine := ⟨rfl, rfl, rfl, rfl, rfl, rfl, rfl⟩

theorem SameStart.of_proceed (h : s.hostTurn = .proceed u) : SameStart s u := by
  obtain ⟨hregs, hpc, hmem, -, hcause, hcfg, hflags, hevents⟩ := proceed_core h
  exact ⟨hregs, hpc, hmem, hcause, hcfg, hflags, hevents⟩

theorem SameStart.fetchedWord (h : SameStart s u) : u.fetchedWord = s.fetchedWord := by
  rw [State.fetchedWord, h.mem, h.pc, State.fetchedWord]

/-- A commit writes no register 0 and stores to no invalid address (R12, R88, R90). -/
structure LegalWrites (s : State) (regW : Option (RegIndex × Word)) (memW : Option (Word × Word)) : Prop where
  reg : ∀ r v, regW = some (r, v) → r ≠ 0
  mem : ∀ ea v, memW = some (ea, v) → ValidData s.cfg ea

/-- The two ends of a step: the run ends with a cause that records the pc, or a cycle commits. -/
inductive CycleEnd (s : State) : State → Prop where
  | terminates (u : State) (c : Cause) (hu : SameStart s u) (hc : c.pc? = some s.pc) : CycleEnd s (u.terminate c)
  | commits (u : State) (regW : Option (RegIndex × Word)) (memW : Option (Word × Word)) (npc : Word)
      (hu : SameStart s u) (hrun : u.run = .running) (hw : LegalWrites u regW memW) :
      CycleEnd s (u.commit regW memW npc)

theorem InstrEnd.cycleEnd {i : Instr} (hu : SameStart s u) (hrun : u.run = .running) (he : InstrEnd i u t) :
    CycleEnd s t := by
  cases he with
  | completes regW npc hreg => exact .commits u regW none npc hu hrun ⟨hreg, nofun⟩
  | stores rs rt imm16 _ ea v hea =>
    exact .commits u none _ _ hu hrun ⟨nofun, by rintro _ _ ⟨⟩; exact hea⟩
  | sentinelEnds | accessEnds => exact .terminates u _ hu (congrArg some hu.pc)

theorem step_cycleEnd (h : step s = .next t) : CycleEnd s t := by
  obtain ⟨hr, hend⟩ := step_cases h
  cases hend with
  | quits => exact .terminates s.takeLine _ .takeLine rfl
  | fetchEnds u c hu hc =>
    have hstart : SameStart s u := .of_proceed hu
    exact .terminates u c hstart (hstart.pc ▸ fetchDecode_error_pc hc)
  | runs u _ i hu _ _ he =>
    obtain ⟨-, -, -, hrun, -⟩ := proceed_core hu
    exact he.cycleEnd (.of_proceed hu) (hrun.trans hr)

/-- A step to a terminated state is a termination of the state before it. -/
theorem step_terminates (h : step s = .next t) (ht : t.run = .terminated) :
    ∃ u c, t = u.terminate c ∧ SameStart s u ∧ c.pc? = some s.pc := by
  cases step_cycleEnd h with
  | terminates u c hu hc => exact ⟨u, c, rfl, hu, hc⟩
  | commits u regW memW npc _ hrun _ =>
    rw [State.commit_run, hrun] at ht
    cases ht

/-- A step to a running state is a commit on the state before it. -/
theorem step_commits (h : step s = .next t) (ht : t.run = .running) :
    ∃ u regW memW npc, t = u.commit regW memW npc ∧ SameStart s u ∧ LegalWrites u regW memW := by
  cases step_cycleEnd h with
  | terminates u c => cases ht
  | commits u regW memW npc hu _ hw => exact ⟨u, regW, memW, npc, rfl, hu, hw⟩

end

/-! ### Progress and precise termination -/

/-- Settles O45: the host's turn, the fetch, the decode and every instruction answer a next state. -/
theorem runningMachineAlwaysSteps : Obligations.RunningMachineAlwaysSteps := by
  intro s hr
  obtain ⟨t, ht, -⟩ := step_of_running hr
  exact ⟨t, ht⟩

/-- Settles O46: a termination sets the run state and the cause alone. -/
theorem terminationIsPrecise : Obligations.TerminationIsPrecise := by
  intro s t h ht
  obtain ⟨u, c, rfl, hu, hc⟩ := step_terminates h ht
  exact ⟨hu.regs, hu.mem, hu.pc, c, rfl, hc⟩

/-- MEMORY_ACCESS alone has a diagnostic (R124). -/
theorem Cause.diagnostics_cases (c : Cause) :
    (∃ pc addr, c = .memoryAccess pc addr ∧ c.diagnostics = [.diagnostic pc addr]) ∨
      (∀ pc addr, c ≠ .memoryAccess pc addr) ∧ c.diagnostics = [] := by
  cases c with
  | memoryAccess pc addr => exact .inl ⟨pc, addr, rfl, rfl⟩
  | _ => exact .inr ⟨nofun, rfl⟩

/-- Settles O47: a termination emits its cause's diagnostics and nothing else. -/
theorem terminationEmitsOnlyTheDiagnostic : Obligations.TerminationEmitsOnlyTheDiagnostic := by
  intro s t h ht
  obtain ⟨u, c, rfl, hu, -⟩ := step_terminates h ht
  rw [State.terminate_cause, State.terminate_events, hu.events]
  rcases Cause.diagnostics_cases c with ⟨pc, addr, rfl, hdiag⟩ | ⟨hne, hdiag⟩
  · exact .inl ⟨pc, addr, rfl, by rw [hdiag]⟩
  · exact .inr ⟨fun pc addr hsome => hne pc addr (Option.some.inj hsome), by rw [hdiag, List.append_nil]⟩

/-! ### The report of a commit -/

section
variable {s u : State} {regW : Option (RegIndex × Word)} {memW : Option (Word × Word)} {npc : Word}

theorem commit_reportsCycle (hu : SameStart s u) : ReportsCycle regW memW s (u.commit regW memW npc) := by
  rw [ReportsCycle, State.commit_events, State.commit_pc, hu.events, hu.pc, hu.fetchedWord]

theorem commit_none_sameRegs (hu : SameStart s u) : SameRegs s (u.commit none memW npc) := fun r => by
  rw [State.readReg_commit, State.writeBack_none, State.readReg_congr hu.regs]

theorem commit_some_changesReg {r : RegIndex} {v : Word} (hu : SameStart s u) (hr : r ≠ 0) :
    (u.commit (some (r, v)) memW npc).readReg r = v ∧ SameRegsExcept r s (u.commit (some (r, v)) memW npc) := by
  refine ⟨?_, fun q hq => ?_⟩ <;> rw [State.readReg_commit, State.writeBack_some, State.readReg_writeReg]
  · rw [if_pos rfl, if_neg hr]
  · rw [if_neg hq, State.readReg_congr hu.regs]

theorem commit_none_sameMemory (hu : SameStart s u) : SameMemory s (u.commit regW none npc) :=
  SameMemory_of_mem_eq (by rw [State.commit_mem, State.storeBack_none, hu.mem])

theorem commit_some_changesWord {ea v : Word} (hm : s.mem.wf) (hu : SameStart s u) :
    (u.commit regW (some (ea, v)) npc).mem.readWord ea.toNat = v ∧
      SameMemoryOutside ea s (u.commit regW (some (ea, v)) npc) := by
  have hmem : (u.commit regW (some (ea, v)) npc).mem = s.mem.writeWord ea.toNat v := by
    rw [State.commit_mem, State.storeBack_some, State.storeWord_mem, hu.mem]
  refine ⟨?_, fun a ha => ?_⟩ <;> rw [hmem]
  · exact Memory.readWord_writeWord_same _ hm _ _
  · exact Memory.readByte_writeWord_of_ne _ hm _ _ _ ha

end

/-- Settles O48: the commit's report names the two writes it makes. -/
theorem reportIsTheWholeChange : Obligations.ReportIsTheWholeChange := by
  intro s t hm h ht
  obtain ⟨u, regW, memW, npc, rfl, hu, hw⟩ := step_commits h ht
  refine ⟨regW, memW, commit_reportsCycle hu, ?_, ?_, (State.commit_cause _ _ _ _).trans hu.cause,
    (State.commit_cfg _ _ _ _).trans hu.cfg, (State.commit_flags _ _ _ _).trans hu.flags⟩
  · rcases regW with - | ⟨r, v⟩
    · exact commit_none_sameRegs hu
    · have hr : r ≠ 0 := hw.reg r v rfl
      exact ⟨hr, commit_some_changesReg hu hr⟩
  · rcases memW with - | ⟨ea, v⟩
    · exact commit_none_sameMemory hu
    · exact ⟨hu.cfg ▸ hw.mem ea v rfl, commit_some_changesWord hm hu⟩

/-! ### The print flags -/

section
variable {s t : State} {f : HostFlags → HostFlags}

/-- The host's turn looks at the interactive flag alone (R99, R100). -/
theorem hostTurn_proceed_mapSetting (hf : (f s.flags).interactive = s.flags.interactive)
    (h : s.hostTurn = .proceed t) : (s.mapSetting id f).hostTurn = .proceed (t.mapSetting id f) := by
  rcases hostTurn_cases s with ⟨hi, h'⟩ | ⟨hi, hq, h'⟩ | ⟨hi, hq, h'⟩ <;> cases h'.symm.trans h
  · exact hostTurn_of_not_interactive (hf.trans hi)
  · have hl : s.hostLine.head? ≠ some 'q' := mt quits_eq_true_iff.2 (by simp [hq])
    exact hostTurn_of_other_line (hf.trans hi) hl

theorem hostTurn_quit_mapSetting (hf : (f s.flags).interactive = s.flags.interactive)
    (h : s.hostTurn = .quit t) : (s.mapSetting id f).hostTurn = .quit (t.mapSetting id f) := by
  rcases hostTurn_cases s with ⟨hi, h'⟩ | ⟨hi, hq, h'⟩ | ⟨hi, hq, h'⟩ <;> cases h'.symm.trans h
  exact hostTurn_of_quit_line (hf.trans hi) (quits_eq_true_iff.1 hq)

theorem step_mapSetting (hf : (f s.flags).interactive = s.flags.interactive) (h : step s = .next t) :
    step (s.mapSetting id f) = .next (t.mapSetting id f) := by
  obtain ⟨hr, hend⟩ := step_cases h
  have hrun : (s.mapSetting id f).run = .running := hr
  cases hend with
  | quits hq => exact step_of_quit hrun (hostTurn_quit_mapSetting hf hq)
  | fetchEnds u c hu hc =>
    have hruns : RunsCycle (s.mapSetting id f) (u.mapSetting id f) := ⟨hrun, hostTurn_proceed_mapSetting hf hu⟩
    have hfetch : (u.mapSetting id f).fetchDecode = .error c := hc
    rw [step_of_runsCycle hruns, hfetch]
    rfl
  | runs u _ i hu hi hexec _ =>
    have hruns : RunsCycle (s.mapSetting id f) (u.mapSetting id f) := ⟨hrun, hostTurn_proceed_mapSetting hf hu⟩
    have hfetch : (u.mapSetting id f).fetchDecode = .ok i := hi
    rw [step_of_runsCycle hruns, hfetch]
    exact exec_mapSetting (fun _ => Iff.rfl) (fun _ _ _ _ _ => rfl) hexec

/-- A machine without a next state has ended. -/
theorem terminated_of_fault {e : Fault} (h : step s = .fault e) : s.run = .terminated := by
  cases hr : s.run with
  | terminated => rfl
  | running =>
    obtain ⟨u, hu, -⟩ := step_of_running hr
    cases hu.symm.trans h

end

/-- Settles O50: the host's turn looks at the interactive flag alone, the fetch and the instructions at no flag. -/
theorem printFlagsDoNotMatter : Obligations.PrintFlagsDoNotMatter := by
  refine fun s f hf => ⟨fun t ht => step_mapSetting (f := fun _ => f) hf ht, fun e he => ?_⟩
  have hr : s.run = .terminated := terminated_of_fault he
  have hr' : State.run { s with flags := f } = .terminated := hr
  rw [step_of_terminated hr', ← step_of_terminated hr, he]

end Sys2Proof.Machine
end

section
/-!
The blocks of the pipeline and the per-instruction meanings agree (spec 40_pipeline.md R73 to R94): the decoder block's
kind and fields are those of the decoded instruction, and the stages after it give the instruction's effect.
-/

namespace Sys2Proof.Machine

/-! ### The decoder block's kind -/

/-- The kind of an instruction, as the decoder block tells it (R70). -/
def instrKind : Instr → Kind
  | .sentinel => .sentinel
  | .sll .. => .sll
  | .srl .. => .srl
  | .jr .. => .jr
  | .addu .. => .addu
  | .subu .. => .subu
  | .and .. => .and
  | .or .. => .or
  | .slt .. => .slt
  | .j .. => .j
  | .jal .. => .jal
  | .beq .. => .beq
  | .bne .. => .bne
  | .addiu .. => .addiu
  | .andi .. => .andi
  | .ori .. => .ori
  | .lui .. => .lui
  | .lw .. => .lw
  | .sw .. => .sw

section
variable {s : State} {w : Word} {i : Instr}

theorem kindOfWord_encode (h : encode i ≠ 0#32) : kindOfWord (encode i) = instrKind i := by
  cases i with
  | sentinel => exact absurd rfl h
  | sll | srl | jr | addu | subu | and | or | slt =>
    rw [kindOfWord, if_neg h]
    simp [encode, kindOfFunct, instrKind]
  | j | jal | beq | bne | addiu | andi | ori | lui | lw | sw =>
    rw [kindOfWord, if_neg h]
    simp [encode, instrKind]

theorem kindOfWord_of_illegalOpcode (h : (opcodeField w).toNat ∉ legalOpcodes) : kindOfWord w = .illegalOpcode := by
  have hw : w ≠ 0#32 := ne_zero_of_illegal h
  simp only [legalOpcodes, List.mem_cons, List.not_mem_nil, or_false, not_or] at h
  simp [kindOfWord, hw, h]

theorem kindOfWord_of_illegalFunct (hw : w ≠ 0#32) (hop : opcodeField w = 0#6)
    (hf : (functField w).toNat ∉ legalFuncts) : kindOfWord w = .illegalFunct := by
  simp only [legalFuncts, List.mem_cons, List.not_mem_nil, or_false, not_or] at hf
  simp [kindOfWord, hw, hop, kindOfFunct, hf]

/-! ### The stages after decode -/

section
variable {d : DecoderOut}

/-- Off lw and sw the load-store unit forwards the result and nothing faults (R86). -/
theorem executeStages_of_not_access (hlw : d.kind ≠ .lw) (hsw : d.kind ≠ .sw) :
    executeStages s d = s.commit (writebackControl d (aluExecutor s.cfg.sltOverflow s.pc d)) none
      (programCounterUpdate s.pc d (aluExecutor s.cfg.sltOverflow s.pc d)) := by
  unfold executeStages loadStoreUnit
  cases hk : d.kind with
  | lw => exact absurd hk hlw
  | sw => exact absurd hk hsw
  | _ => rfl

theorem executeStages_of_lw (hk : d.kind = .lw) :
    executeStages s d = if ValidData s.cfg (d.vs + d.imm) then
        s.commit (destination d.rt (s.mem.readWord (d.vs + d.imm).toNat)) none s.nextPc
      else s.terminate (.memoryAccess s.pc (d.vs + d.imm)) := by
  simp only [executeStages, loadStoreUnit, writebackControl, programCounterUpdate, aluExecutor, hk, decide_eq_true_eq,
    ite_not, State.nextPc]

theorem executeStages_of_sw (hk : d.kind = .sw) :
    executeStages s d = if ValidData s.cfg (d.vs + d.imm) then
        s.commit none (some (d.vs + d.imm, d.vt)) s.nextPc
      else s.terminate (.memoryAccess s.pc (d.vs + d.imm)) := by
  simp only [executeStages, loadStoreUnit, writebackControl, programCounterUpdate, aluExecutor, hk, decide_eq_true_eq,
    ite_not, State.nextPc]

end

/-- The address operands of the decoder block for an I-format word (R77, R80). -/
theorem instructionDecoder_address (op : BitVec 6) (rs rt : RegIndex) (imm16 : BitVec 16) :
    (instructionDecoder s (encodeI op rs rt imm16)).vs + (instructionDecoder s (encodeI op rs rt imm16)).imm =
      effectiveAddress (s.readReg rs) imm16 := by
  simp [instructionDecoder, effectiveAddress]

/-- The branch conditions as equalities (R115, R116). -/
theorem exec_beq (rs rt : RegIndex) (imm16 : BitVec 16) : exec (.beq rs rt imm16) s =
    s.finishJump (s.nextPc + if s.readReg rs = s.readReg rt then branchOffset imm16 else 0#32) := by
  simp only [exec, execBeq, patternsEqual_iff]

theorem exec_bne (rs rt : RegIndex) (imm16 : BitVec 16) : exec (.bne rs rt imm16) s =
    s.finishJump (s.nextPc + if s.readReg rs = s.readReg rt then 0#32 else branchOffset imm16) := by
  simp only [exec, execBne, patternsEqual_iff]

/-- The stages run on the decoder block's output for an instruction's word are the instruction (R94). -/
theorem exec_eq_executeStages (h : encode i ≠ 0#32) :
    exec i s = .next (executeStages s (instructionDecoder s (encode i))) := by
  have hkind : (instructionDecoder s (encode i)).kind = instrKind i := kindOfWord_encode h
  cases i with
  | sentinel => exact absurd rfl h
  | lw rs rt imm16 =>
    rw [executeStages_of_lw hkind, encode, instructionDecoder_address]
    by_cases ha : ValidData s.cfg (effectiveAddress (s.readReg rs) imm16)
    · rw [exec_lw_valid ha, if_pos ha, State.finishReg, instructionDecoder, rtField_encodeI]
    · rw [exec_lw_invalid ha, if_neg ha]
  | sw rs rt imm16 =>
    rw [executeStages_of_sw hkind, encode, instructionDecoder_address]
    by_cases ha : ValidData s.cfg (effectiveAddress (s.readReg rs) imm16)
    · rw [exec_sw_valid ha, if_pos ha, instructionDecoder, rtField_encodeI]
    · rw [exec_sw_invalid ha, if_neg ha]
  | _ =>
    rw [executeStages_of_not_access (hkind ▸ nofun) (hkind ▸ nofun)]
    simp only [writebackControl, programCounterUpdate, aluExecutor, hkind, instrKind]
    simp only [instructionDecoder, encode, rsField_encodeR, rtField_encodeR, rdField_encodeR, shamtField_encodeR,
      rsField_encodeI, rtField_encodeI, immField_encodeI, targetField_encodeJ, exec_beq, exec_bne]
    rfl

/-! ### The cycle -/

theorem fetchUnit_of_fetchOk (h : FetchOk s.cfg s.pc) : fetchUnit s = { instr := s.fetchedWord, ok := true } := by
  rw [fetchUnit, if_pos h, decide_eq_true h, State.fetchedWord]

theorem interpreterCycle_of_bad_fetch (h : ¬ FetchOk s.cfg s.pc) :
    interpreterCycle s = s.terminate (.fetchFault s.pc) := if_pos (decide_eq_false h)

/-- A fetchable pc: the cycle is decided by the kind of the fetched word, verdicts first (R94). -/
theorem interpreterCycle_of_fetchOk (h : FetchOk s.cfg s.pc) : interpreterCycle s =
    if kindOfWord s.fetchedWord = .sentinel then s.terminate (.sentinel s.pc)
    else if kindOfWord s.fetchedWord = .illegalOpcode then s.terminate (.illegalOpcode s.pc s.fetchedWord)
    else if kindOfWord s.fetchedWord = .illegalFunct then s.terminate (.illegalFunct s.pc s.fetchedWord)
    else executeStages s (instructionDecoder s s.fetchedWord) := by
  rw [interpreterCycle, fetchUnit_of_fetchOk h]
  rfl

/-- A verdict that is no instruction ends the cycle before its stages (R78). -/
theorem interpreterCycle_of_decode_error {e : DecodeError} (hpc : FetchOk s.cfg s.pc)
    (h : decode s.fetchedWord = .error e) :
    interpreterCycle s = s.terminate (verdictCause s.pc s.fetchedWord e) := by
  have hverdict : Verdict s.fetchedWord (.error e) := h ▸ decode_verdict _
  rw [interpreterCycle_of_fetchOk hpc]
  cases hverdict with
  | illegalOpcode hop => rw [kindOfWord_of_illegalOpcode hop]; rfl
  | illegalFunct hw hop hf => rw [kindOfWord_of_illegalFunct hw hop hf]; rfl

/-- The sentinel ends the cycle there too, and every other instruction runs the stages. -/
theorem exec_eq_interpreterCycle (hpc : FetchOk s.cfg s.pc) (h : decode s.fetchedWord = .ok i) :
    exec i s = .next (interpreterCycle s) := by
  have hverdict : Verdict s.fetchedWord (.ok i) := h ▸ decode_verdict _
  rw [interpreterCycle_of_fetchOk hpc]
  cases hverdict with
  | sentinel hw => rw [hw]; rfl
  | instr _ hw _ _ henc =>
    rw [← henc] at hw ⊢
    rw [kindOfWord_encode hw]
    cases i with
    | sentinel => exact absurd rfl hw
    | _ => exact exec_eq_executeStages hw

end

/-- Settles O39: a bad fetch ends both the same way, and on a fetched word both follow the decoder's verdict. -/
theorem stepIsThePipelineCycle : Obligations.StepIsThePipelineCycle := by
  intro s t h
  rw [step_of_runsCycle h]
  rcases fetchDecode_cases t with ⟨hpc, hfetch⟩ | ⟨hpc, e, hdecode, hfetch⟩ | ⟨hpc, i, hdecode, hfetch⟩ <;> rw [hfetch]
  · rw [interpreterCycle_of_bad_fetch hpc]
  · rw [interpreterCycle_of_decode_error hpc hdecode]
  · exact exec_eq_interpreterCycle hpc hdecode

end Sys2Proof.Machine
end

section
/-!
The register-register ALU instructions (spec 41_alu_register.md R102 to R108): the word patterns of the R format, each
instruction's result in the spec's terms, and the two readings of slt.
-/

namespace Sys2Proof.Machine

/-! ### Words of an R-format pattern -/

section
variable {mk : RegIndex → RegIndex → RegIndex → BitVec 5 → Instr} {w : Word}

/-- A word that has the opcode and funct of an R-format row, and is not the sentinel, is that row's instruction: it is
the encoding of the instruction its fields make. -/
theorem decode_of_R_pattern (funct : BitVec 6)
    (hmk : ∀ rs rt rd shamt, encode (mk rs rt rd shamt) = encodeR funct rs rt rd shamt)
    (h : w &&& 0xFC00003F#32 = encodeR funct 0 0 0 0) (hw : w ≠ 0#32) : decode w = .ok (ofR mk w) := by
  obtain ⟨hop, hfunct⟩ := opcode_funct_of_mask w _ h
  rw [opcodeField_encodeR] at hop
  rw [functField_encodeR] at hfunct
  have henc : encode (ofR mk w) = w := calc
    encode (ofR mk w) = encodeR (functField w) (rsField w) (rtField w) (rdField w) (shamtField w) := by
      rw [hfunct]; exact hmk _ _ _ _
    _ = w := encodeR_fields w hop
  calc decode w = decode (encode (ofR mk w)) := by rw [henc]
    _ = .ok (ofR mk w) := decode_encode_of_ne_zero (by rwa [henc])

/-- Only sll shares its pattern with the sentinel (R64). -/
theorem decode_of_R_pattern_of_funct_ne_zero (funct : BitVec 6) (hfunct : funct ≠ 0#6)
    (hmk : ∀ rs rt rd shamt, encode (mk rs rt rd shamt) = encodeR funct rs rt rd shamt)
    (h : w &&& 0xFC00003F#32 = encodeR funct 0 0 0 0) : decode w = .ok (ofR mk w) := by
  refine decode_of_R_pattern funct hmk h (ne_zero_of_funct w ?_)
  rwa [(opcode_funct_of_mask w _ h).2, functField_encodeR]

end

/-! ### Shifts, sums, differences and bitwise operations -/

/-- Settles O11: the zero word is tested first, and every other word of the pattern is sll. -/
theorem sllShiftsLeft : Obligations.SllShiftsLeft :=
  ⟨decode_zero, fun _ h hw => decode_of_R_pattern 0#6 (fun _ _ _ _ => rfl) h hw,
    fun _ _ rd _ s => finishReg_spec s rd _⟩

/-- Settles O12: the funct is not 0, so no word of the pattern is the sentinel. -/
theorem srlShiftsRightLogical : Obligations.SrlShiftsRightLogical :=
  ⟨fun _ h => decode_of_R_pattern_of_funct_ne_zero 0x02#6 (by decide) (fun _ _ _ _ => rfl) h,
    fun _ _ rd _ s => finishReg_spec s rd _⟩

/-- Settles O13: the sum of words is the sum of their naturals modulo 2^32. -/
theorem adduAdds : Obligations.AdduAdds := by
  refine ⟨fun _ h => decode_of_R_pattern_of_funct_ne_zero 0x21#6 (by decide) (fun _ _ _ _ => rfl) h,
    fun rs rt rd shamt s => ?_⟩
  rw [← BitVec.add_def]
  exact finishReg_spec s rd _

/-- The wrapped difference is the integers' difference modulo 2^32. -/
theorem ofInt_toInt_sub_toInt (vs vt : Word) : BitVec.ofInt 32 (vs.toInt - vt.toInt) = vs - vt := by
  rw [Int.sub_eq_add_neg, BitVec.ofInt_add, BitVec.ofInt_neg, BitVec.ofInt_toInt, BitVec.ofInt_toInt,
    BitVec.sub_eq_add_neg]

/-- Settles O14: the difference of words is the difference of their signed values modulo 2^32. -/
theorem subuSubtracts : Obligations.SubuSubtracts := by
  refine ⟨fun _ h => decode_of_R_pattern_of_funct_ne_zero 0x23#6 (by decide) (fun _ _ _ _ => rfl) h,
    fun rs rt rd shamt s => ?_⟩
  rw [ofInt_toInt_sub_toInt]
  exact finishReg_spec s rd _

/-- Settles O15: the pattern gives the instruction, and its cycle ends in the register write. -/
theorem andIsBitwise : Obligations.AndIsBitwise :=
  ⟨fun _ h => decode_of_R_pattern_of_funct_ne_zero 0x24#6 (by decide) (fun _ _ _ _ => rfl) h,
    fun _ _ rd _ s => finishReg_spec s rd _⟩

/-- Settles O16, as O15. -/
theorem orIsBitwise : Obligations.OrIsBitwise :=
  ⟨fun _ h => decode_of_R_pattern_of_funct_ne_zero 0x25#6 (by decide) (fun _ _ _ _ => rfl) h,
    fun _ _ rd _ s => finishReg_spec s rd _⟩

/-! ### The two readings of slt -/

section
variable (vs vt : Word)

theorem sltResult_wrapSign :
    sltResult .wrapSign vs vt = if 2 ^ 31 ≤ (vs - vt).toNat then 1#32 else 0#32 := by
  simp only [sltResult, getLsbD_31_eq, decide_eq_true_eq]

theorem sltResult_trueLess : sltResult .trueLess vs vt = if vs.toInt < vt.toInt then 1#32 else 0#32 := rfl

theorem getLsbD_31_eq_msb (w : Word) : w.getLsbD 31 = w.msb := (BitVec.msb_eq_getLsbD_last w).symm

/-- The readings give the same result where they give the same truth value. -/
theorem sltResult_eq_iff :
    sltResult .wrapSign vs vt = sltResult .trueLess vs vt ↔ ((vs - vt).msb = true ↔ vs.toInt < vt.toInt) := by
  rw [sltResult_trueLess, sltResult, getLsbD_31_eq_msb]
  by_cases hwrap : (vs - vt).msb = true <;> by_cases hless : vs.toInt < vt.toInt <;> simp [hwrap, hless]

/-- The subtraction overflows where the operands' signs differ and the difference's sign is not the first's. -/
theorem ssubOverflow_iff_signs :
    vs.ssubOverflow vt = true ↔ vs.msb ≠ vt.msb ∧ (vs - vt).msb ≠ vs.msb := by
  rw [BitVec.ssubOverflow_eq]
  cases vs.msb <;> cases vt.msb <;> simp

variable {vs vt}

/-- Without overflow the wrapped difference is the integers' difference, and so has its sign. -/
theorem sub_msb_iff_lt_of_not_ssubOverflow (h : ¬ vs.ssubOverflow vt = true) :
    (vs - vt).msb = true ↔ vs.toInt < vt.toInt := by
  rw [BitVec.msb_eq_toInt, decide_eq_true_iff, BitVec.toInt_sub_of_not_ssubOverflow h, sub_neg]

/-- With overflow the operands' signs decide the comparison, and the wrapped difference has the other sign. -/
theorem sub_msb_iff_not_lt_of_ssubOverflow (h : vs.ssubOverflow vt = true) :
    (vs - vt).msb = true ↔ ¬ vs.toInt < vt.toInt := by
  obtain ⟨hsigns, hdiff⟩ := (ssubOverflow_iff_signs vs vt).1 h
  cases hvs : vs.msb with
  | false =>
    have hvt : vt.msb = true := by simpa [hvs] using hsigns
    have hs := BitVec.toInt_nonneg_of_msb_false hvs
    have ht := BitVec.toInt_neg_of_msb_true hvt
    exact iff_of_true (by simpa [hvs] using hdiff) (by omega)
  | true =>
    have hvt : vt.msb = false := by simpa [hvs] using hsigns
    have hs := BitVec.toInt_neg_of_msb_true hvs
    have ht := BitVec.toInt_nonneg_of_msb_false hvt
    exact iff_of_false (by simpa [hvs] using hdiff) (by omega)

end

/-- Settles O18: without overflow the difference's sign is the comparison, with overflow it is its negation. -/
theorem sltReadingsDifferOnOverflowOnly : Obligations.SltReadingsDifferOnOverflowOnly := by
  intro vs vt
  rw [sltResult_eq_iff, ← ssubOverflow_iff_signs]
  by_cases h : vs.ssubOverflow vt = true
  · rw [sub_msb_iff_not_lt_of_ssubOverflow h]
    exact iff_of_false not_iff_self (not_not_intro h)
  · exact iff_of_true (sub_msb_iff_lt_of_not_ssubOverflow h) h

/-- slt ends in the write of the reading's result (R108). -/
theorem exec_slt_spec (rs rt rd : RegIndex) (shamt : BitVec 5) (s : State) {reading : SltOverflow}
    (h : s.cfg.sltOverflow = reading) : ∃ t, exec (.slt rs rt rd shamt) s = .next t ∧
      WritesRegister rd (sltResult reading (s.readReg rs) (s.readReg rt)) (s.pc + 4#32) s t :=
  h ▸ finishReg_spec s rd _

/-- Settles O17: each reading's result is as sltResult gives it, and they agree by O18. -/
theorem sltFollowsTheReading : Obligations.SltFollowsTheReading := by
  refine ⟨rfl, fun vs vt h => ?_,
    fun _ h => decode_of_R_pattern_of_funct_ne_zero 0x2A#6 (by decide) (fun _ _ _ _ => rfl) h,
    fun rs rt rd shamt s h => ?_, fun rs rt rd shamt s h => exec_slt_spec rs rt rd shamt s h⟩
  · simp only [getLsbD_31_eq_msb] at h
    exact (sltReadingsDifferOnOverflowOnly vs vt).2 h
  · rw [← sltResult_wrapSign]
    exact exec_slt_spec rs rt rd shamt s h

end Sys2Proof.Machine
end

section
/-!
The register-immediate ALU instructions (spec 42_alu_immediate.md R109 to R112): the word patterns of the I format, and
each instruction's result with its immediate in the library's terms.
-/

namespace Sys2Proof.Machine

/-- A word that has the opcode of an I-format row is that row's instruction: it is the encoding of the instruction its
fields make. The opcode is not 0, so the word is not the sentinel. -/
theorem decode_of_I_pattern {mk : RegIndex → RegIndex → BitVec 16 → Instr} {w : Word} (op : BitVec 6) (hop : op ≠ 0#6)
    (hmk : ∀ rs rt imm16, encode (mk rs rt imm16) = encodeI op rs rt imm16)
    (h : w &&& 0xFC000000#32 = encodeI op 0 0 0) : decode w = .ok (ofI mk w) := by
  obtain ⟨hw, hopw⟩ := opcode_of_I_mask w _ h (by rwa [opcodeField_encodeI])
  rw [opcodeField_encodeI] at hopw
  have henc : encode (ofI mk w) = w := (hmk _ _ _).trans (encodeI_fields w op hopw)
  calc decode w = decode (encode (ofI mk w)) := by rw [henc]
    _ = .ok (ofI mk w) := decode_encode_of_ne_zero (by rwa [henc])

/-- Settles O21: the pattern gives the instruction, and its cycle ends in the register write. -/
theorem addiuAddsSignExtended : Obligations.AddiuAddsSignExtended := by
  refine ⟨fun _ h => decode_of_I_pattern 0x09#6 (by decide) (fun _ _ _ => rfl) h, fun rs rt imm16 s => ?_⟩
  rw [← signExtend32_eq]
  exact finishReg_spec s rt _

/-- Settles O22, as O21: the mask is sign-extended too. -/
theorem andiSignExtends : Obligations.AndiSignExtends := by
  refine ⟨fun _ h => decode_of_I_pattern 0x0C#6 (by decide) (fun _ _ _ => rfl) h, fun rs rt imm16 s => ?_⟩
  rw [← signExtend32_eq]
  exact finishReg_spec s rt _

/-- Settles O23, as O22. -/
theorem oriSignExtends : Obligations.OriSignExtends := by
  refine ⟨fun _ h => decode_of_I_pattern 0x0D#6 (by decide) (fun _ _ _ => rfl) h, fun rs rt imm16 s => ?_⟩
  rw [← signExtend32_eq]
  exact finishReg_spec s rt _

/-- Settles O24: the shift of lui's operand moves the sign-extension bits out. -/
theorem luiPlacesUpperHalf : Obligations.LuiPlacesUpperHalf := by
  refine ⟨fun _ h => decode_of_I_pattern 0x0F#6 (by decide) (fun _ _ _ => rfl) h, fun rs rt imm16 s => ?_⟩
  rw [← upperImmediate_eq]
  exact finishReg_spec s rt _

end Sys2Proof.Machine
end

section
/-!
lw and sw (spec 43_load_store.md R113, R114): what each does at a valid address is said by exec_lw_at and exec_sw_at of
the section on loads and stores; the two end alike at an invalid one.
-/

namespace Sys2Proof.Machine

/-! ### An invalid address -/

/-- lw and sw at an invalid address end the run with cause MEMORY_ACCESS, whatever register rt is (R113, R114, R124). -/
theorem exec_access_terminates {i : Instr} {rs rt : RegIndex} {imm16 : BitVec 16} {s : State} {ea : Word}
    (hi : i = .lw rs rt imm16 ∨ i = .sw rs rt imm16) (hea : ea = s.readReg rs + imm16.signExtend 32)
    (hv : ¬ ValidData s.cfg ea) : ∃ t, exec i s = .next t ∧ TerminatesWith (.memoryAccess s.pc ea) s t := by
  rw [← effectiveAddress_eq] at hea
  subst hea
  refine ⟨_, ?_, terminate_spec s _⟩
  rcases hi with rfl | rfl
  · exact exec_lw_invalid hv
  · exact exec_sw_invalid hv

/-! ### The two instructions -/

/-- Settles O25: at a valid address the cycle ends in the register write of the word read there, at any other in a
termination. -/
theorem lwLoadsOrTerminates : Obligations.LwLoadsOrTerminates := by
  refine ⟨fun _ h => decode_of_I_pattern 0x23#6 (by decide) (fun _ _ _ => rfl) h, fun rs rt imm16 s ea hea => ⟨?_, ?_⟩⟩
  · intro hv
    rw [exec_lw_at hea hv]
    exact finishReg_spec s rt _
  · exact exec_access_terminates (.inl rfl) hea

/-- Settles O26: at a valid address the cycle commits the store of rt's word, at any other it ends in a termination. -/
theorem swStoresOrTerminates : Obligations.SwStoresOrTerminates := by
  refine ⟨fun _ h => decode_of_I_pattern 0x2B#6 (by decide) (fun _ _ _ => rfl) h,
    fun rs rt imm16 s ea hm hea => ⟨?_, ?_⟩⟩
  · intro hv
    exact ⟨_, exec_sw_at hea hv, commit_storesWord s hm ea _ _⟩
  · exact exec_access_terminates (.inr rfl) hea

end Sys2Proof.Machine
end

section
/-!
Branches and jumps (spec 44_control_transfer.md R115 to R119): the word pattern of the J format, and the next pc of each
instruction in the library's terms. All but jal write the pc alone.
-/

namespace Sys2Proof.Machine

/-- A word that has the opcode of a J-format row is that row's instruction: it is the encoding of the instruction its
field makes. The opcode is not 0, so the word is not the sentinel. -/
theorem decode_of_J_pattern {mk : BitVec 26 → Instr} {w : Word} (op : BitVec 6) (hop : op ≠ 0#6)
    (hmk : ∀ target26, encode (mk target26) = encodeJ op target26)
    (h : w &&& 0xFC000000#32 = encodeJ op 0) : decode w = .ok (ofJ mk w) := by
  obtain ⟨hw, hopw⟩ := opcode_of_I_mask w _ h (by rwa [opcodeField_encodeJ])
  rw [opcodeField_encodeJ] at hopw
  have henc : encode (ofJ mk w) = w := (hmk _).trans (encodeJ_fields w op hopw)
  calc decode w = decode (encode (ofJ mk w)) := by rw [henc]
    _ = .ok (ofJ mk w) := decode_encode_of_ne_zero (by rwa [henc])

theorem branchOffset_eq (imm16 : BitVec 16) : branchOffset imm16 = imm16.signExtend 32 <<< 2 := by
  rw [branchOffset, signExtend32_eq]

/-- Settles O32: the pc takes the branch's offset from pc + 4 where the registers are equal, and no offset elsewhere. -/
theorem beqBranchesOnEqual : Obligations.BeqBranchesOnEqual := by
  refine ⟨fun _ h => decode_of_I_pattern 0x04#6 (by decide) (fun _ _ _ => rfl) h, fun rs rt imm16 s => ?_⟩
  rw [exec_beq, add_ite, BitVec.add_zero, branchOffset_eq]
  exact finishJump_spec s _

/-- Settles O33, as O32 with the two cases exchanged. -/
theorem bneBranchesOnUnequal : Obligations.BneBranchesOnUnequal := by
  refine ⟨fun _ h => decode_of_I_pattern 0x05#6 (by decide) (fun _ _ _ => rfl) h, fun rs rt imm16 s => ?_⟩
  rw [exec_bne, add_ite, BitVec.add_zero, branchOffset_eq]
  exact finishJump_spec s _

/-- Settles O34: the cycle ends in the write of the pc with the jump's target. -/
theorem jJumps : Obligations.JJumps :=
  ⟨fun _ h => decode_of_J_pattern 0x02#6 (by decide) (fun _ => rfl) h,
    fun target26 s => finishJump_spec s (jumpTarget s.pc target26)⟩

/-- Settles O35: the commit is a register write's, for the destination 31 is not register 0. -/
theorem jalLinksAndJumps : Obligations.JalLinksAndJumps :=
  ⟨fun _ h => decode_of_J_pattern 0x03#6 (by decide) (fun _ => rfl) h,
    fun target26 s => ⟨_, rfl, commit_writesRegister s 31 s.nextPc (jumpTarget s.pc target26)⟩⟩

/-- Settles O36: the cycle ends in the write of the pc with the register's value, with no check of it. -/
theorem jrTakesTheRegister : Obligations.JrTakesTheRegister :=
  ⟨fun _ h => decode_of_R_pattern_of_funct_ne_zero 0x08#6 (by decide) (fun _ _ _ _ => rfl) h,
    fun rs _ _ _ s => finishJump_spec s (s.readReg rs)⟩

end Sys2Proof.Machine
end

section
/-!
The ways a run ends (spec 60_exceptions.md R120 to R132). A cycle ends its run through one operation,
`State.terminate`, so `terminate_spec` gives the frame of every cause: for each, what is left is to say that the step,
the instruction's meaning or the boot takes that cause.
-/

namespace Sys2Proof.Machine

section
variable {s t : State}

/-! ### Before and at the decode -/

/-- A cycle that fetch or decode gives a cause to ends with that cause (R76, R78, R94). -/
theorem step_of_fetchDecode_error {c : Cause} (h : RunsCycle s t) (hc : t.fetchDecode = .error c) :
    ∃ u, step s = .next u ∧ TerminatesWith c t u := by
  refine ⟨_, ?_, terminate_spec t c⟩
  rw [step_of_runsCycle h, hc]

theorem fetchDecode_of_not_fetchOk (h : ¬ FetchOk s.cfg s.pc) : s.fetchDecode = .error (.fetchFault s.pc) := if_neg h

theorem fetchDecode_of_decode_error {e : DecodeError} (hpc : FetchOk s.cfg s.pc)
    (he : decode s.fetchedWord = .error e) : s.fetchDecode = .error (verdictCause s.pc s.fetchedWord e) := by
  rw [State.fetchDecode, if_pos hpc, he]

/-! ### An invalid address -/

/-- lw and sw at an invalid address are the termination itself, which keeps the storage of registers and memory and not
only what is read of them (R42, R124). -/
theorem exec_access_at_invalid {i : Instr} {rs rt : RegIndex} {imm16 : BitVec 16} {ea : Word}
    (hi : i = .lw rs rt imm16 ∨ i = .sw rs rt imm16) (hea : ea = s.readReg rs + imm16.signExtend 32)
    (hv : ¬ ValidData s.cfg ea) : exec i s = .next (s.terminate (.memoryAccess s.pc ea)) := by
  rw [← effectiveAddress_eq] at hea
  subst hea
  rcases hi with rfl | rfl
  · exact exec_lw_invalid hv
  · exact exec_sw_invalid hv

end

/-! ### The loader's two checks -/

section
variable {cfg : Config} {flags : HostFlags} {lines : List HostLine} {image : List Byte}

theorem boot_of_malformed (h : image.length % 4 ≠ 0) :
    boot cfg flags lines image = .noRun (.imageMalformed image.length) := if_pos h

theorem boot_of_too_large (h4 : image.length % 4 = 0) (h : cfg.numInstr < image.length / 4) :
    boot cfg flags lines image = .noRun (.programTooLarge (image.length / 4)) := by
  rw [boot, if_neg (not_not.2 h4), imageWords_length, if_pos h]

theorem boot_of_fits (h4 : image.length % 4 = 0) (h : image.length / 4 ≤ cfg.numInstr) :
    boot cfg flags lines image =
      .started (State.resetOf cfg flags lines (loadWords cfg.instrBase.toNat (imageWords image) [])) := by
  rw [boot, if_neg (not_not.2 h4), imageWords_length, if_neg (Nat.not_lt.2 h)]

end

/-- Settles O57: the three clauses are the loader's two checks, in order, and the boot that passes both. -/
theorem bootRefusesBadImages : Obligations.BootRefusesBadImages :=
  fun _ _ _ _ => ⟨boot_of_malformed, boot_of_too_large, fun h4 h => ⟨_, boot_of_fits h4 h⟩⟩

/-- Settles O7: the zero word decodes to the sentinel, whose meaning is a termination. -/
theorem sentinelEndsTheRun : Obligations.SentinelEndsTheRun := by
  have hexec : ∀ s, ∃ t, exec .sentinel s = .next t ∧ TerminatesWith (.sentinel s.pc) s t :=
    fun s => ⟨_, rfl, terminate_spec s _⟩
  refine ⟨hexec, fun s t h hpc hw => ?_⟩
  rw [step_of_decode h hpc (hw ▸ decode_zero)]
  exact hexec t

/-- Settles O8: a word outside the opcode map gets the decoder's verdict illegalOpcode. -/
theorem illegalOpcodeEndsTheRun : Obligations.IllegalOpcodeEndsTheRun := by
  refine ⟨by decide, fun s t h hpc hop => ?_⟩
  have he : decode t.fetchedWord = .error .illegalOpcode := (decode_verdict _).eq_illegalOpcode_iff.2 hop
  exact step_of_fetchDecode_error h (fetchDecode_of_decode_error hpc he)

/-- Settles O9: a word of opcode 0 outside the funct map gets the decoder's verdict illegalFunct. -/
theorem illegalFunctEndsTheRun : Obligations.IllegalFunctEndsTheRun := by
  refine ⟨by decide, fun s t h hpc hw hop hf => ?_⟩
  have he : decode t.fetchedWord = .error .illegalFunct := (decode_verdict _).eq_illegalFunct_iff.2 ⟨hw, hop, hf⟩
  exact step_of_fetchDecode_error h (fetchDecode_of_decode_error hpc he)

/-- Settles O27: the two instructions take the termination with cause MEMORY_ACCESS, the one cause with a
diagnostic. -/
theorem invalidAccessIsDiagnosed : Obligations.InvalidAccessIsDiagnosed :=
  fun _ _ _ _ _ _ hi hea hv => ⟨_, exec_access_at_invalid hi hea hv, rfl, rfl, rfl, rfl, rfl, rfl⟩

/-- Settles O40: each of the three ways breaks one conjunct of the fetch check. -/
theorem badFetchEndsTheRun : Obligations.BadFetchEndsTheRun := by
  intro s t h hbad
  have hpc : ¬ FetchOk t.cfg t.pc := by
    rintro ⟨halign, hlo, hhi⟩
    rcases hbad with hmis | hbelow | habove
    · exact hmis halign
    · exact hbelow.not_ge hlo
    · exact habove.not_gt hhi
  exact step_of_fetchDecode_error h (fetchDecode_of_not_fetchOk hpc)

/-- Settles O41: the host's turn quits after taking the line, and taking it leaves the pc. -/
theorem hostQuitEndsTheRun : Obligations.HostQuitEndsTheRun := by
  intro s rest hr hi hline
  have hq : s.hostTurn = .quit s.takeLine := hostTurn_of_quit_line hi (by rw [hline, List.head?_cons])
  exact ⟨_, step_of_quit hr hq, terminate_spec s.takeLine _⟩

/-- Settles O44: the run state is the first thing a step looks at. -/
theorem noStepOnceTerminated : Obligations.NoStepOnceTerminated := fun _ => step_of_terminated

end Sys2Proof.Machine
end

section
/-!
Reset and boot (spec 70_reset_and_hazards.md R137 to R143, R149): what a booted machine holds, and how many
reports a run from any state has emitted.
-/

namespace Sys2Proof.Machine

/-! ### A run emits one report per cycle -/

section
variable {s t : State} {k : Nat}

/-- No step is enabled once the run has ended, so a run to a running state starts from one (R131). -/
theorem running_of_run (h : Host.Core.run Sys2Proof.core k s = .next t) (ht : t.run = .running) : s.run = .running := by
  cases k with
  | zero => cases h; exact ht
  | succ k =>
    obtain ⟨_, hstep, -⟩ := run_succ h
    obtain ⟨hr, -⟩ := step_cases hstep
    exact hr

/-- A completed cycle emits one report (R97). -/
theorem step_emits_report (h : step s = .next t) (ht : t.run = .running) :
    ∃ r : Report, t.events = s.events ++ [.report r] := by
  obtain ⟨u, regW, memW, npc, rfl, hu, -⟩ := step_commits h ht
  exact ⟨_, commit_reportsCycle hu⟩

end

/-- Settles O49, by induction on the number of steps: every state of a run to a running state is running, so each of its
steps is a completed cycle. -/
theorem oneReportPerCompletedCycle : Obligations.OneReportPerCompletedCycle := by
  intro k
  induction k with
  | zero =>
    intro s t h _
    cases h
    exact ⟨[], rfl, (List.append_nil _).symm⟩
  | succ k ih =>
    intro s t h ht
    obtain ⟨u, hstep, hrun⟩ := run_succ h
    obtain ⟨r, hr⟩ := step_emits_report hstep (running_of_run hrun ht)
    obtain ⟨rs, hlen, hrs⟩ := ih u t hrun ht
    refine ⟨r :: rs, congrArg Nat.succ hlen, ?_⟩
    rw [hrs, hr, List.append_assoc, List.map_cons, List.singleton_append]

/-! ### Registers after reset -/

/-- MEM_END lies as many words above INSTR_BASE as the two regions hold (R7). -/
theorem Config.memEnd_eq (c : Config) : c.memEnd = c.instrBase.toNat + 4 * (c.numInstr + c.numData) := by
  rw [Config.memEnd, Config.dataEnd, Config.dataBase, Nat.mul_add, Nat.add_assoc]

/-- Register 29 alone has a reset value other than 0 (R137). -/
theorem State.resetOf_readReg_of_ne (cfg : Config) (flags : HostFlags) (lines : List HostLine) (mem : Memory)
    {r : RegIndex} (hr : r ≠ 29) : (State.resetOf cfg flags lines mem).readReg r = 0#32 := by
  have hne : 29 ≠ (r : ℕ) := fun h => hr (Fin.ext h.symm)
  simp [State.readReg, State.resetOf, Vector.getElem_set_ne, hne]

/-- Settles O55: boot sets registers, pc and run state by the reset alone, whatever the image. -/
theorem bootSetsRegistersAndPc : Obligations.BootSetsRegistersAndPc := by
  intro cfg flags lines image s _ h
  obtain ⟨-, -, rfl⟩ := boot_started h
  rw [← Config.memEnd_eq]
  exact ⟨State.resetOf_readReg_29 _ _ _ _, fun _ hr => State.resetOf_readReg_of_ne _ _ _ _ hr, rfl, rfl, rfl⟩

/-! ### Memory after the load -/

theorem Memory.nil_wf : Memory.wf [] := ⟨.nil, nofun⟩

theorem State.resetOf_memWord (cfg : Config) (flags : HostFlags) (lines : List HostLine) (mem : Memory) (k : Nat) :
    (State.resetOf cfg flags lines mem).memWord k = mem.readWord (cfg.instrBase.toNat + 4 * k) := rfl

/-- Settles O53: the loader lists bytes only in the words of the image it loads, and those fit their region. -/
theorem bootEstablishesInv : Obligations.BootEstablishesInv := by
  intro cfg flags lines image s hcfg h
  obtain ⟨-, hfits, rfl⟩ := boot_started h
  obtain ⟨hwf, -, -, hlisted⟩ := loadWords_spec (imageWords image) cfg.instrBase.toNat [] Memory.nil_wf
  have himage : ∀ c ∈ loadWords cfg.instrBase.toNat (imageWords image) [],
      cfg.instrBase.toNat ≤ c.1 ∧ c.1 < cfg.memEnd := by
    intro c hc
    rw [Config.memEnd_eq]
    rcases hlisted c hc with ⟨hlo, hhi⟩ | hnil
    · rw [imageWords_length] at hhi
      omega
    · exact absurd hnil List.not_mem_nil
  exact resetOf_inv flags lines hcfg hwf himage

/-- Settles O56: a word of the image reads as it was loaded, and one above the image as in the empty memory. -/
theorem bootLoadsTheImage : Obligations.BootLoadsTheImage := by
  intro cfg flags lines image s _ h
  obtain ⟨-, -, rfl⟩ := boot_started h
  obtain ⟨-, hother, hloaded, -⟩ := loadWords_spec (imageWords image) cfg.instrBase.toNat [] Memory.nil_wf
  rw [imageWords_length] at hother hloaded
  refine ⟨fun k hk => ?_, fun k hk _ => ?_⟩ <;> rw [State.resetOf_memWord]
  · rw [hloaded k hk, imageWords_getD image k hk]
  · rw [hother _ (.inr (by omega)), Memory.readWord_nil]

/-- With nothing loaded the first word is the sentinel's (R141). -/
theorem step_resetOf_nil {cfg : Config} {flags : HostFlags} (lines : List HostLine) (hcfg : cfg.Wf)
    (hi : flags.interactive = false) : step (State.resetOf cfg flags lines []) =
      .next ((State.resetOf cfg flags lines []).terminate (.sentinel cfg.instrBase)) := by
  have hruns : RunsCycle (State.resetOf cfg flags lines []) (State.resetOf cfg flags lines []) :=
    ⟨rfl, hostTurn_of_not_interactive hi⟩
  have hword : (State.resetOf cfg flags lines []).fetchedWord = 0#32 := Memory.readWord_nil _
  exact step_of_decode hruns (fetchOk_instrBase hcfg) (hword ▸ decode_zero)

/-- Settles O59: the empty image boots to a reset, and the reset's first step is the sentinel's termination. -/
theorem emptyImageEndsAtOnce : Obligations.EmptyImageEndsAtOnce :=
  fun _ lines hcfg => ⟨_, _, boot_nil _ _ lines, step_resetOf_nil lines hcfg rfl, terminate_spec _ _⟩

end Sys2Proof.Machine
end
